-- ==== Sys2Proof/Word.lean ====
section
/-!
DEFINITION. The data types of the Base8 Symbol Codec: bits, 3-bit values, bytes, character codes (spec rule R9) and the four
fixed-width beats (rules R46 to R50). Everything here is a bit vector because the spec numbers its bits.
-/

namespace Sys2Proof

/-- `Val3` of rule R9: the "fixed 3-bit value 0–7" of a symbol. -/
abbrev Val3 := BitVec 3

/-- `Byte` of rule R9: an unsigned 8-bit value. -/
abbrev Byte := BitVec 8

/-- `Char` of rule R9: the unsigned 21-bit code carried on the symbol ports (`CPW` = 21). It need not be a Unicode scalar value. -/
abbrev Chr := BitVec 21

/-- Format `EI` (rule R47): an input beat of `ENC`, 9 bits. -/
abbrev EI := BitVec 9

/-- Format `EO` (rule R48): an output beat of `ENC`, 22 bits. -/
abbrev EO := BitVec 22

/-- Format `DI` (rule R49): an input beat of `DEC`, 22 bits. -/
abbrev DI := BitVec 22

/-- Format `DO` (rule R50): an output beat of `DEC`, 24 bits. -/
abbrev DO := BitVec 24

end Sys2Proof
end

