-- ==== Sys2Proof/Machine/Operands.lean ====
section
/-!
DEFINITION. Bit slicing (spec rule R8), the operand fields of the input beats (rules R47, R49, R51) and the fields of the
output beats (rules R48, R50, R51). A vector of varying width is kept as its number together with its width.
-/

namespace Sys2Proof.Machine

/-- `t[hi:lo]` of rule R8 as a number. -/
def slice (t hi lo : Nat) : Nat :=
  (t >>> lo) % 2 ^ (hi + 1 - lo)

/-- `acc[k-1:0]` of rule R8 as a number; the empty slice (`k = 0`) has the value 0. -/
def lowBits {w : Nat} (acc : BitVec w) (k : Nat) : Nat :=
  acc.toNat % 2 ^ k

/-- `{ acc[k-1:0], v }` as a number: the residual bits followed by the new ones, the earliest most significant
(rules R71 and R84). -/
def joinResidual {w n : Nat} (acc : BitVec w) (k : Nat) (v : BitVec n) : Nat :=
  lowBits acc k * 2 ^ n + v.toNat

/-- `EI.end` (rule R47). -/
def eiEnd (w : EI) : Bool := w.getLsbD 8

/-- `EI.data` (rule R47). -/
def eiData (w : EI) : Byte := w.extractLsb' 0 8

/-- `DI.end` (rule R49). -/
def diEnd (w : DI) : Bool := w.getLsbD 21

/-- `DI.ch` (rule R49). -/
def diCh (w : DI) : Chr := w.extractLsb' 0 21

/-- The `EI` word with the fields `end` and `data` (rule R47). -/
def eiWord (last : Bool) (data : Byte) : EI := BitVec.ofBool last ++ data

/-- The `DI` word with the fields `end` and `ch` (rule R49). -/
def diWord (last : Bool) (ch : Chr) : DI := BitVec.ofBool last ++ ch

/-- The `EO` word with the fields `end` and `sym` (rule R48). -/
def eoWord (last : Bool) (sym : Chr) : EO := BitVec.ofBool last ++ sym

/-- The symbol beat `EO{ end = 0, sym = c }`. -/
def eoSymbol (c : Chr) : EO := eoWord false c

/-- The end beat `EO{ end = 1, sym = 0 }`. -/
def eoEnd : EO := eoWord true 0

/-- The `DO` word with the fields `end`, `status` and `payload` (rule R50). -/
def doWord (last : Bool) (status : BitVec 2) (payload : Chr) : DO :=
  BitVec.ofBool last ++ status ++ payload

/-- The byte beat `DO{ end = 0, status = 0, payload = zext_21(b) }` (rules R50, R51). -/
def doByte (b : Byte) : DO := doWord false 0 (b.setWidth 21)

/-- The result beat `DO{ end = 1, status, payload }` (rule R50). -/
def doResult (status : BitVec 2) (payload : Chr) : DO := doWord true status payload

end Sys2Proof.Machine
end

