-- ==== Sys2Proof/Machine/Symbols.lean ====
section
/-!
DEFINITION. The symbol mapping (spec file 40_symbol_map.md): the symbol ROM, its inverse look-up, the whitespace test and the
decoder's front end `classify`. All are pure functions of the ROM `SYM` and the whitespace set `WS`; neither direction has a
table of its own (rule R69).
-/

namespace Sys2Proof.Machine

/-- The symbol ROM of rule R36: eight read-only entries of 21 bits, entry `v` the code of the symbol of value `v`. -/
abbrev Rom := Vector Chr 8

/-- The alphabet of rule R52: five entries are fixed, `SYM[3]`, `SYM[6]` and `SYM[7]` are OPEN. -/
def romOf (sym3 sym6 sym7 : Chr) : Rom :=
  #v[0x697D#21, 0x53EF#21, 0x611B#21, sym3, 0x305F#21, 0x3057#21, sym6, sym7]

/-- `symbol_for(x)` of rule R63, for a value of any width: the ROM's address is the low three bits of `x`. -/
def symbolFor (rom : Rom) (x : Nat) : Chr :=
  rom[x % 8]'(Nat.mod_lt x (by decide))

/-- The eight 3-bit values, in order. -/
def allVal3 : List Val3 :=
  [0, 1, 2, 3, 4, 5, 6, 7]

/-- `value_for(c)` of rule R64; `none` stands for the failure `InvalidSymbol(c)`. -/
def valueFor (rom : Rom) (c : Chr) : Option Val3 :=
  allVal3.find? fun v => symbolFor rom v.toNat == c

/-- `is_ws(c)` of rule R67. -/
def isWs (ws : List Chr) (c : Chr) : Bool :=
  ws.contains c

/-- The three answers of `classify` (rule R68). -/
inductive CharClass where
  | whitespace
  | symbol (v : Val3)
  | invalid (c : Chr)
  deriving DecidableEq, Repr

/-- `classify(c)` of rule R68. -/
def classify (rom : Rom) (ws : List Chr) (c : Chr) : CharClass :=
  if isWs ws c then .whitespace
  else
    match valueFor rom c with
    | some v => .symbol v
    | none => .invalid c

/-- Whether `c` is classified as a symbol. -/
def isSymbol (rom : Rom) (ws : List Chr) (c : Chr) : Bool :=
  !isWs ws c && (valueFor rom c).isSome

/-- The code points from `lo` to `hi`, both included. -/
def codeRange (lo hi : Nat) : List Chr :=
  (List.range (hi + 1 - lo)).map fun k => BitVec.ofNat 21 (lo + k)

/-- The default `WS` of rule R67: the 25 code points with the Unicode property `White_Space` (general knowledge, spec GK2). -/
def defaultWs : List Chr :=
  codeRange 0x0009 0x000D ++ [0x0020, 0x0085, 0x00A0, 0x1680] ++ codeRange 0x2000 0x200A ++
    [0x2028, 0x2029, 0x202F, 0x205F, 0x3000]

/-- Rule R9: a code in 0 to 0xD7FF or 0xE000 to 0x10FFFF is a Unicode scalar value. -/
def isScalar (c : Chr) : Bool :=
  decide (c.toNat ≤ 0xD7FF) || (decide (0xE000 ≤ c.toNat) && decide (c.toNat ≤ 0x10FFFF))

/-- The constraints the spec puts on `SYM` and `WS`: rule R7 (a) distinct, (b) no symbol is whitespace, (c) U+3002 is one of
the OPEN entries, (d) U+3042 is no symbol, (e) with the UTF-8 check on U+3002 is not `SYM[3]` (the model adopts the spec's
decision D11; assumption log 8); rule R6: U+0020 is in `WS` and U+3042 is not; rule R65: both hold scalar values only.

DESIGN CHOICE (assumption log 20): nothing else is asked of the OPEN entries. In particular U+0041, U+200B and U+FEFF may be
symbols, as rule R7 (f) has it, although the examples of rule R64 and of V-M6, V-M9 and V-D14 take them for characters outside
the alphabet without naming that condition. -/
abbrev AlphabetOk (rom : Rom) (ws : List Chr) (utf8Check : Bool) : Prop :=
  rom.toList.Nodup ∧
  (rom.toList.all fun c => !isWs ws c) = true ∧
  (0x3002#21 = rom[3] ∨ 0x3002#21 = rom[6] ∨ 0x3002#21 = rom[7]) ∧
  0x3042#21 ∉ rom.toList ∧
  (utf8Check = true → rom[3] ≠ 0x3002#21) ∧
  isWs ws 0x0020#21 = true ∧
  isWs ws 0x3042#21 = false ∧
  rom.toList.all isScalar = true ∧
  ws.all isScalar = true

end Sys2Proof.Machine
end

