-- ==== Sys2Proof/Config.lean ====
section
/-!
DEFINITION. The parameters of spec rule R6 and their constraints (rules R6 and R7). OPEN parameters are arguments of the
machine: a value of `Params` is carried by every state and no step changes it (assumption log 1), so a statement about all
states is a statement about all admissible parameters. A value that breaks a constraint cannot be a `Params`
(`Machine.State.boot` refuses it by name, spec U17).
-/

namespace Sys2Proof

open Sys2Proof.Machine (Rom romOf AlphabetOk defaultWs)

/-- The parameters that rule R6 leaves OPEN or takes as arguments, before their constraints are checked.
`obufCap = none` is the unbounded `OBUF_CAP`. -/
structure RawParams where
  sym3      : Chr
  sym6      : Chr
  sym7      : Chr
  ws        : List Chr
  utf8Check : Bool
  obufCap   : Option Nat
  nInst     : Nat
  deriving DecidableEq, Repr

/-- The symbol ROM these parameters give (rules R36, R52). -/
abbrev RawParams.rom (r : RawParams) : Rom :=
  romOf r.sym3 r.sym6 r.sym7

/-- The constraints of rules R6 and R7 (a) to (e) on all of them. -/
abbrev RawParams.Ok (r : RawParams) : Prop :=
  AlphabetOk r.rom r.ws r.utf8Check ∧ 1 ≤ r.nInst

/-- Admissible parameters: the raw values with the proof that they meet their constraints. -/
structure Params extends RawParams where
  ok : toRawParams.Ok
  deriving DecidableEq, Repr

namespace Config

/-- "This system" (rule R6) with the alphabet's OPEN entries as arguments: the default `WS` of rule R67, `UTF8_CHECK` 1, and
the defaults `OBUF_CAP` unbounded and `N_INST` 1. -/
def thisSystemRaw (sym3 sym6 sym7 : Chr) : RawParams where
  sym3 := sym3
  sym6 := sym6
  sym7 := sym7
  ws := defaultWs
  utf8Check := true
  obufCap := none
  nInst := 1

/-- Some admissible alphabet exists (this shows that the type of the constant `openAlphabet` is not empty, and nothing else). -/
theorem admissible_alphabet_exists : (thisSystemRaw 0x43 0x3002 0x42).Ok := by decide

/-- The alphabet entries no source gives (spec N1), with the constraints they are known to meet. The values after `:=` only
witness that the type is inhabited, which Lean asks of an `opaque` constant; nothing can be proved of `openAlphabet` from them. -/
structure OpenAlphabet where
  sym3 : Chr := 0x43
  sym6 : Chr := 0x3002
  sym7 : Chr := 0x42
  ok   : (thisSystemRaw sym3 sym6 sym7).Ok := by exact admissible_alphabet_exists
  deriving Inhabited

/-- FREE VALUE (spec U1: "Never pick characters"): `SYM[3]`, `SYM[6]` and `SYM[7]` of the machine at reset. The constant has
no body: only its constraints can be used of it (assumption log 2). -/
opaque openAlphabet : OpenAlphabet

/-- The parameters of the machine at reset: "this system" over the unknown alphabet entries. -/
def thisSystem : Params where
  toRawParams := thisSystemRaw openAlphabet.sym3 openAlphabet.sym6 openAlphabet.sym7
  ok := openAlphabet.ok

end Config

end Sys2Proof
end

