-- ==== Sys2Proof/Syntax.lean ====
section
/-!
DEFINITION. The command set (spec rule R3): four input beat kinds, two per unit, one constructor for each row of
spec/opcode_table.json. Beside them, what the host may do to the hardware (rule R131) and the pseudo-instructions `ENCODE` and
`DECODE` of rule R59.
-/

namespace Sys2Proof

/-- The commands of rules R3 and R54. `EEND` and `DEND` have no operand: their data bits are ignored (rule R55). -/
inductive Instr where
  /-- `EBYTE d` (rule R71): the next byte of the byte stream. -/
  | ebyte (d : Byte)
  /-- `EEND` (rule R73): closes a message of `ENC`. -/
  | eend
  /-- `DCHAR c` (rule R82): the next character of the symbol stream. -/
  | dchar (c : Chr)
  /-- `DEND` (rule R89): closes a message of `DEC`. -/
  | dend
  deriving DecidableEq, Repr

/-- The two units of rule R2. -/
inductive UnitName where
  | enc
  | dec
  deriving DecidableEq, Repr

/-- The unit a command is a beat of (rule R3). -/
def Instr.unit : Instr → UnitName
  | .ebyte _ => .enc
  | .eend => .enc
  | .dchar _ => .dec
  | .dend => .dec

/-- Whether a command closes its message (rule R3). -/
def Instr.closes : Instr → Bool
  | .ebyte _ => false
  | .eend => true
  | .dchar _ => false
  | .dend => true

/-- An input beat as it crosses its channel (rule R11): a word of format `EI` on `ENC`'s channel or `DI` on `DEC`'s. -/
inductive Beat where
  | ei (w : EI)
  | di (w : DI)
  deriving DecidableEq, Repr

/-- The unit whose channel carries the beat. -/
def Beat.unit : Beat → UnitName
  | .ei _ => .enc
  | .di _ => .dec

/-- The host's liberties (rule R131): offer the next beat, assert a unit's reset input, read a unit's output channel. -/
inductive HostAct where
  | beat (b : Beat)
  | reset (u : UnitName)
  | read (u : UnitName)
  deriving DecidableEq, Repr

/-- The unit a host's act is addressed to. -/
def HostAct.unit : HostAct → UnitName
  | .beat b => b.unit
  | .reset u => u
  | .read u => u

/-- One move of the host: an act on one of the `N_INST` instances (rule R114). -/
structure Move where
  inst : Nat
  act  : HostAct
  deriving DecidableEq, Repr

/-- `ENCODE <bytes>` (rule R59): one `EBYTE` per byte, then `EEND`. -/
def encodeMessage (bytes : List Byte) : List Instr :=
  bytes.map .ebyte ++ [.eend]

/-- `DECODE "<string>"` (rule R59): one `DCHAR` per character, then `DEND`. -/
def decodeMessage (chars : List Chr) : List Instr :=
  chars.map .dchar ++ [.dend]

end Sys2Proof
end

