-- ==== Sys2Proof/WellFormed.lean ====
section
/-!
DEFINITION. What is well formed. Every command is (spec rule R56: no illegal encodings; the operands' widths stand in their
types); what can be ill formed is a word too wide for its channel (rule R46), a sequence of commands that is not one message
of one unit (rules R3, R121, R122) and a move on an instance that does not exist (rule R114).
-/

namespace Sys2Proof

/-- No command is ill formed (rule R56: "each of the 512 `EI` values and each of the 2^22 `DI` values is a legal command"). -/
def Instr.wellFormed : Instr → Bool
  | .ebyte _ => true
  | .eend => true
  | .dchar _ => true
  | .dend => true

/-- The width of a unit's input beats (rule R46). -/
def UnitName.beatWidth : UnitName → Nat
  | .enc => 9
  | .dec => 22

/-- Whether the number `w` fits a beat of the unit's input channel. -/
def UnitName.wordWellFormed (u : UnitName) (w : Nat) : Bool :=
  decide (w < 2 ^ u.beatWidth)

/-- Whether the commands are one message of the unit (rule R3): its data beats, then one closing beat, and nothing else. -/
def messageWellFormed (u : UnitName) : List Instr → Bool
  | [] => false
  | [i] => i.unit == u && i.closes
  | i :: j :: rest => i.unit == u && !i.closes && messageWellFormed u (j :: rest)

/-- Whether a move names one of the `nInst` instances. -/
def Move.wellFormed (nInst : Nat) (m : Move) : Bool :=
  decide (m.inst < nInst)

end Sys2Proof
end

