-- ==== Sys2Proof/Decode.lean ====
section
/-!
DEFINITION. Decoding of input beats (spec rules R46, R54 to R56) and the encoder of commands. One bit selects the command on
each channel; both maps from beats are total (rule R54). Words in a container wider than a beat are rejected by name.
-/

namespace Sys2Proof

open Sys2Proof.Machine (eiEnd eiData diEnd diCh eiWord diWord)

/-- The command of an `EI` beat (rules R47, R54). -/
def decodeEI (w : EI) : Instr :=
  if eiEnd w then .eend else .ebyte (eiData w)

/-- The command of a `DI` beat (rules R49, R54). -/
def decodeDI (w : DI) : Instr :=
  if diEnd w then .dend else .dchar (diCh w)

/-- The command of a beat. -/
def decodeBeat : Beat → Instr
  | .ei w => decodeEI w
  | .di w => decodeDI w

/-- The canonical beat of a command (rules R47, R49, R54, R55: producers drive ignored fields to 0). -/
def encode : Instr → Beat
  | .ebyte d => .ei (eiWord false d)
  | .eend => .ei (eiWord true 0)
  | .dchar c => .di (diWord false c)
  | .dend => .di (diWord true 0)

/-- Why a word in a container is no beat. -/
inductive DecodeReject where
  /-- The word has a bit above the channel's beat (9 bits for `EI`, 22 for `DI`; rule R46). Safe. -/
  | widerThanBeat
  deriving DecidableEq, Repr

/-- The beat a number stands for on a unit's input channel. -/
def beatOfWord (u : UnitName) (w : Nat) : Except DecodeReject Beat :=
  if u.wordWellFormed w then
    match u with
    | .enc => .ok (.ei (BitVec.ofNat 9 w))
    | .dec => .ok (.di (BitVec.ofNat 22 w))
  else .error .widerThanBeat

/-- Decoding of a word that stands in a container on a unit's input channel: total, rejecting by name. -/
def decodeWord (u : UnitName) (w : Nat) : Except DecodeReject Instr :=
  (beatOfWord u w).map decodeBeat

/-- The channel a row of spec/opcode_table.json belongs to, from the bits of its container: `EI` (9 bits) fits two bytes,
`DI` (22 bits) does not (assumption log 12). -/
def tableUnit (nbits : Nat) : UnitName :=
  if nbits ≤ 16 then .enc else .dec

/-- The beat of a table word of `nbits` bits, if it is one. -/
def tableBeat (nbits w : Nat) : Option Beat :=
  match beatOfWord (tableUnit nbits) w with
  | .ok b => some b
  | .error _ => none

/-- The command this decoder reads from a table word of `nbits` bits. -/
def decodeTableWord (nbits w : Nat) : Option Instr :=
  (tableBeat nbits w).map decodeBeat

/-- The word of a beat as a number, and the mask and match of the rows of rule R54. -/
def Beat.toNat : Beat → Nat
  | .ei w => w.toNat
  | .di w => w.toNat

/-- The `mask` column of rule R54. -/
def Instr.tableMask : Instr → Nat
  | .ebyte _ => 0x100
  | .eend => 0x100
  | .dchar _ => 0x200000
  | .dend => 0x200000

/-- The `match` column of rule R54. -/
def Instr.tableMatch : Instr → Nat
  | .ebyte _ => 0x000
  | .eend => 0x100
  | .dchar _ => 0x000000
  | .dend => 0x200000

end Sys2Proof
end

