-- ==== Sys2Proof/Machine/State.lean ====
section
/-!
DEFINITION. The architectural state (spec file 10_state.md), its idle and reset values (rule R27), and the reasons a step can
stop. The state also carries the machine's parameters, which no step changes (assumption log 1), the host's pending moves
(assumption log 5), and the position in each unit's input message (rule R19 (a); assumption log 21).
-/

namespace Sys2Proof.Machine

/-- The state of `ENC` (rules R14, R15) and its output channel (rule R22). -/
structure EncUnit where
  /-- `E.acc` (rule R14): the residual bits, right-aligned. -/
  acc : BitVec 2
  /-- `E.cnt` (rule R15): how many residual bits there are. -/
  cnt : BitVec 2
  /-- `E.out` (rule R22): the beats emitted since power-on, oldest first. -/
  out : List EO
  deriving DecidableEq, Repr

/-- The state of `DEC` (rules R17, R18, R20, R21) and its output channel (rule R22). -/
structure DecUnit where
  /-- `D.acc` (rule R17): the residual bits, right-aligned. -/
  acc   : BitVec 7
  /-- `D.nbits` (rule R18): how many residual bits there are. -/
  nbits : BitVec 3
  /-- `D.bad` (rule R20): an `InvalidSymbol` has been seen in this message. -/
  bad   : Bool
  /-- `D.badch` (rule R20): the offending character, 0 while `D.bad = 0`. -/
  badch : Chr
  /-- `D.obuf` (rule R21): the bytes completed in this message, oldest first. -/
  obuf  : List Byte
  /-- `D.out` (rule R22): the beats emitted since power-on, oldest first. -/
  out   : List DO
  deriving DecidableEq, Repr

/-- One instance (rule R114): a complete `ENC` and `DEC`, and what rule R19 (a) leaves with the host and the channels: the
position in the input message of each unit. No command reads or writes a position: it says whether a message is open. -/
structure Codec where
  enc    : EncUnit
  dec    : DecUnit
  /-- The position on `ENC`'s input channel (rule R19 (a)): how many beats of the open message are consumed; 0 while no message
  is open (assumption log 21). -/
  encPos : Nat
  /-- The position on `DEC`'s input channel, likewise. -/
  decPos : Nat
  deriving DecidableEq, Repr

/-- The whole machine. -/
structure State where
  /-- The parameters of rule R6 with their constraints: arguments of the machine, changed by no step (rule R28). -/
  cfg   : Params
  /-- The `N_INST` instances (rule R114), by number. -/
  insts : List Codec
  /-- MODEL'S OWN: the instance the current command is a beat for. -/
  sel   : Nat
  /-- MODEL'S OWN: the host's pending moves, next one first; they hold the beats offered on the input channels. -/
  host  : List Move
  deriving DecidableEq, Repr

/-- Why the machine stops with a fault. The spec gives the hardware none; this one is the model's. -/
inductive Fault where
  /-- Raised by `step` and by every command: the addressed instance does not exist (number not below `N_INST`, rule R114).
  Safe: the hardware has no such instance to act on. -/
  | noSuchInstance
  deriving DecidableEq, Repr

/-- Why the model gives no next state (rule R10: `refuse`). -/
inductive Refusal where
  /-- Raised by `exec` for a command that has no meaning yet (none is left). Safe. -/
  | notModelled (mnemonic : String)
  /-- Raised by `DCHAR` in the symbol case: a byte would be appended to a `D.obuf` that holds `OBUF_CAP` bytes
  (rules R84, R88: "the spec gives the step no meaning: a model refuses"). Safe. -/
  | obufFull
  /-- Raised by `EBYTE` and `EEND` in a state with `E.cnt = 3`, which rule R15 excludes ("its legal values are 0, 1 and 2")
  and no run reaches. Safe. -/
  | encCounterIllegal
  /-- Raised by `State.boot`: the machine is handed parameters that violate rule R6 or R7 (spec U17; for R7 (e) assumption log 8). Safe. -/
  | badParameters
  deriving DecidableEq, Repr

/-- The idle state of `ENC` (rule R27) with its output channel as given (rule R119: reset does not remove beats). -/
def EncUnit.idle (out : List EO) : EncUnit where
  acc := 0
  cnt := 0
  out := out

/-- The idle state of `DEC` (rule R27) with its output channel as given. -/
def DecUnit.idle (out : List DO) : DecUnit where
  acc := 0
  nbits := 0
  bad := false
  badch := 0
  obuf := []
  out := out

/-- An instance after power-on and reset: both units idle, both output channels empty (rule R27), no message open. -/
def Codec.powerOn : Codec where
  enc := EncUnit.idle []
  dec := DecUnit.idle []
  encPos := 0
  decPos := 0

/-- The machine with given parameters right after power-on and the reset of every unit (rules R27, R117). -/
def State.powerOn (p : Params) : State where
  cfg := p
  insts := List.replicate p.nInst Codec.powerOn
  sel := 0
  host := []

/-- The machine right after reset (rules R27, R118), with the parameters of "this system". -/
def State.reset : State := State.powerOn Config.thisSystem

end Sys2Proof.Machine
end

