-- ==== Sys2Proof/Machine/Flags.lean ====
section
/-!
DEFINITION. The one status flag of the hardware, `D.bad` with its value register `D.badch` (spec rule R20), and the status
codes of a decode (rule R101). `ENC` has no flags.
-/

namespace Sys2Proof.Machine

/-- The outcome kinds of a decode (rules R100, R101). -/
inductive Status where
  | ok
  | invalidSymbol
  | unexpectedEnd
  | invalidUtf8
  deriving DecidableEq, Repr

/-- The codes of rule R101, carried in `DO.status`. -/
def Status.code : Status → BitVec 2
  | .ok => 0
  | .invalidSymbol => 1
  | .unexpectedEnd => 2
  | .invalidUtf8 => 3

/-- Sets the flag: `D.bad <- 1`, `D.badch <- c` (rules R20, R85). -/
def DecUnit.setBad (c : Chr) (u : DecUnit) : DecUnit :=
  { u with bad := true, badch := c }

end Sys2Proof.Machine
end

