-- ==== Sys2Proof/Machine/Ops.lean ====
section
/-!
DEFINITION. The shared operations: acting on one unit of the selected instance (spec rule R13: a step of one unit reads and
writes only that unit), emitting beats (rules R11, R22), taking an error (rule R105: latch and report) and the return to idle
(rule R94, rule R108).
-/

namespace Sys2Proof.Machine

/-- What a step of one unit answers. -/
abbrev UnitOutcome (α : Type) := Host.Outcome α Fault Refusal

/-- The selected instance, if it exists. -/
def State.codec? (s : State) : Option Codec :=
  s.insts[s.sel]?

/-- The state with `ENC` of the selected instance replaced. -/
def State.setEnc (s : State) (e : EncUnit) : State :=
  { s with insts := s.insts.modify s.sel fun m => { m with enc := e } }

/-- The state with `DEC` of the selected instance replaced. -/
def State.setDec (s : State) (d : DecUnit) : State :=
  { s with insts := s.insts.modify s.sel fun m => { m with dec := d } }

/-- A step of `ENC` of the selected instance. -/
def State.onEnc (s : State) (f : EncUnit → UnitOutcome EncUnit) : Host.Outcome State Fault Refusal :=
  match s.codec? with
  | none => .fault .noSuchInstance
  | some m =>
    match f m.enc with
    | .next e => .next (s.setEnc e)
    | .fault r => .fault r
    | .refused r => .refused r

/-- A step of `DEC` of the selected instance. -/
def State.onDec (s : State) (f : DecUnit → UnitOutcome DecUnit) : Host.Outcome State Fault Refusal :=
  match s.codec? with
  | none => .fault .noSuchInstance
  | some m =>
    match f m.dec with
    | .next d => .next (s.setDec d)
    | .fault r => .fault r
    | .refused r => .refused r

/-- `append(E.out, …)`: beats appended to `ENC`'s output channel, in order (rules R11, R41). -/
def EncUnit.emit (beats : List EO) (u : EncUnit) : EncUnit :=
  { u with out := u.out ++ beats }

/-- `append(D.out, …)`: beats appended to `DEC`'s output channel, in order. -/
def DecUnit.emit (beats : List DO) (u : DecUnit) : DecUnit :=
  { u with out := u.out ++ beats }

/-- `ENC` goes to idle; beats already emitted stay (rules R73, R117, R119). -/
def EncUnit.toIdle (u : EncUnit) : EncUnit :=
  EncUnit.idle u.out

/-- `DEC` goes to idle; beats already emitted stay (rules R94, R108, R117, R119). -/
def DecUnit.toIdle (u : DecUnit) : DecUnit :=
  DecUnit.idle u.out

/-- Error entry, first form (rule R105, *latch*): the first `InvalidSymbol(c)` of a message is recorded, nothing is emitted. -/
def DecUnit.latchInvalidSymbol (c : Chr) (u : DecUnit) : DecUnit :=
  u.setBad c

/-- Error entry, second form (rule R105, *report*): one result beat with the status and payload of rule R101 and no byte beat.
Nothing else is saved or changed. -/
def DecUnit.report (st : Status) (payload : Chr) (u : DecUnit) : DecUnit :=
  u.emit [doResult st.code payload]

end Sys2Proof.Machine
end

