-- ==== Sys2Proof/Machine/Utf8.lean ====
section
/-!
DEFINITION. The UTF-8 well-formedness check of spec rule R95, from that rule's nine-row table (the standard's, supplied to the
spec from general knowledge: spec GK3).
-/

namespace Sys2Proof.Machine

/-- The bytes from `lo` to `hi`, both included. -/
structure ByteRange where
  lo : Nat
  hi : Nat
  deriving DecidableEq, Repr

/-- Whether a byte is in the range. -/
def ByteRange.has (r : ByteRange) (b : Byte) : Bool :=
  decide (r.lo ≤ b.toNat) && decide (b.toNat ≤ r.hi)

/-- The ranges of continuation bytes that occur in the table. -/
def contBytes : ByteRange := ⟨0x80, 0xBF⟩

/-- One row of the table: the range of the first byte, and those of the bytes after it. -/
structure Utf8Row where
  first : ByteRange
  rest  : List ByteRange
  deriving DecidableEq, Repr

/-- The table of rule R95. -/
def utf8Rows : List Utf8Row :=
  [ ⟨⟨0x00, 0x7F⟩, []⟩,
    ⟨⟨0xC2, 0xDF⟩, [contBytes]⟩,
    ⟨⟨0xE0, 0xE0⟩, [⟨0xA0, 0xBF⟩, contBytes]⟩,
    ⟨⟨0xE1, 0xEC⟩, [contBytes, contBytes]⟩,
    ⟨⟨0xED, 0xED⟩, [⟨0x80, 0x9F⟩, contBytes]⟩,
    ⟨⟨0xEE, 0xEF⟩, [contBytes, contBytes]⟩,
    ⟨⟨0xF0, 0xF0⟩, [⟨0x90, 0xBF⟩, contBytes, contBytes]⟩,
    ⟨⟨0xF1, 0xF3⟩, [contBytes, contBytes, contBytes]⟩,
    ⟨⟨0xF4, 0xF4⟩, [⟨0x80, 0x8F⟩, contBytes, contBytes]⟩ ]

/-- The check from the middle of a sequence: `due` holds the ranges that the next bytes must fall in. -/
def utf8From : List ByteRange → List Byte → Bool
  | [], [] => true
  | _ :: _, [] => false
  | r :: due, b :: bytes => r.has b && utf8From due bytes
  | [], b :: bytes =>
    match utf8Rows.find? fun row => row.first.has b with
    | none => false
    | some row => utf8From row.rest bytes

/-- `utf8_ok(out)` of rule R95. -/
def utf8Ok (out : List Byte) : Bool :=
  utf8From [] out

end Sys2Proof.Machine
end

