-- ==== Sys2Proof/Machine/Decoder.lean ====
section
/-!
DEFINITION. The commands of the decoder unit `DEC` (spec file 42_decoder.md): `DCHAR` (rules R82 to R88) and `DEND` (rules R89
to R94).
-/

namespace Sys2Proof.Machine

/-- Whether a symbol now completes a byte: `D.nbits + 3 >= 8` (rule R84). -/
def DecUnit.completesByte (u : DecUnit) : Bool :=
  decide (u.nbits.toNat + 3 ≥ 8)

/-- Rule R84 on the unit: residual bits and the symbol's value are joined; the eight earliest bits, if there are eight, are
appended to `D.obuf`; the rest is kept. -/
def DecUnit.takeSymbol (v : Val3) (u : DecUnit) : DecUnit :=
  let t := joinResidual u.acc u.nbits.toNat v
  let n := u.nbits.toNat + 3
  if u.completesByte then
    { u with
      obuf := u.obuf ++ [BitVec.ofNat 8 (slice t (n - 1) (n - 8))]
      acc := BitVec.ofNat 7 (t % 2 ^ (n - 8))
      nbits := BitVec.ofNat 3 (n - 8) }
  else
    { u with
      acc := BitVec.ofNat 7 (t % 2 ^ n)
      nbits := BitVec.ofNat 3 n }

/-- Rules R82 to R86 on the unit: the drained, whitespace, symbol and invalid cases, chosen in this order. -/
def DecUnit.takeChar (p : Params) (c : Chr) (u : DecUnit) : DecUnit :=
  if u.bad then u
  else
    match classify p.rom p.ws c with
    | .whitespace => u
    | .symbol v => u.takeSymbol v
    | .invalid c => u.latchInvalidSymbol c

/-- Whether `D.obuf` holds `OBUF_CAP` bytes (rule R88; assumption log 7 for more than `OBUF_CAP`). -/
def DecUnit.obufIsFull (p : Params) (u : DecUnit) : Bool :=
  match p.obufCap with
  | none => false
  | some cap => decide (cap ≤ u.obuf.length)

/-- The case rule R88 refuses: a symbol-case `DCHAR` that would append a byte to a full `D.obuf`. -/
def DecUnit.overflows (p : Params) (c : Chr) (u : DecUnit) : Bool :=
  u.obufIsFull p && u.completesByte && !u.bad && isSymbol p.rom p.ws c

/-- The success of rule R93: the byte beats of `D.obuf` in order, then the `OK` result beat. -/
def DecUnit.deliver (u : DecUnit) : DecUnit :=
  (u.emit (u.obuf.map doByte)).report .ok 0

/-- The tests of rule R89, in its order, and then the return to idle of rule R94. -/
def DecUnit.finish (p : Params) (u : DecUnit) : DecUnit :=
  (if u.bad then u.report .invalidSymbol u.badch
   else if u.nbits.toNat ≥ 3 then u.report .unexpectedEnd 0
   else if p.utf8Check && !utf8Ok u.obuf then u.report .invalidUtf8 0
   else u.deliver).toIdle

/-- `DCHAR c` (rules R82 to R88). -/
def execDchar (c : Chr) (s : State) : Host.Outcome State Fault Refusal :=
  s.onDec fun u => if u.overflows s.cfg c then .refused .obufFull else .next (u.takeChar s.cfg c)

/-- `DEND` (rules R89 to R94). -/
def execDend (s : State) : Host.Outcome State Fault Refusal :=
  s.onDec fun u => .next (u.finish s.cfg)

end Sys2Proof.Machine
end

