-- ==== Sys2Proof/Machine/Encoder.lean ====
section
/-!
DEFINITION. The commands of the encoder unit `ENC` (spec file 41_encoder.md): `EBYTE` (rule R71) and `EEND` (rule R73).
-/

namespace Sys2Proof.Machine

/-- The loop of rule R71 on the `n` low bits of `t`: the values of the complete 3-bit groups, earliest first, and the number of
bits left over. -/
def sliceGroups (t : Nat) : Nat → List Val3 × Nat
  | n + 3 =>
    let r := sliceGroups t n
    (BitVec.ofNat 3 (slice t (n + 2) n) :: r.1, r.2)
  | n => ([], n)

/-- Rule R71 on the unit: residual bits and byte are joined, complete groups are emitted as symbols, the rest is kept. -/
def EncUnit.takeByte (rom : Rom) (d : Byte) (u : EncUnit) : EncUnit :=
  let t := joinResidual u.acc u.cnt.toNat d
  let r := sliceGroups t (u.cnt.toNat + 8)
  { acc := BitVec.ofNat 2 (t % 2 ^ r.2)
    cnt := BitVec.ofNat 2 r.2
    out := u.out ++ r.1.map fun v => eoSymbol (symbolFor rom v.toNat) }

/-- The value of the last, partial group (rule R73): the residual bits at the top, zeros below. -/
def EncUnit.padGroup (u : EncUnit) : Val3 :=
  BitVec.ofNat 3 (lowBits u.acc u.cnt.toNat <<< (3 - u.cnt.toNat))

/-- Rule R73 on the unit: the padded last group if there are residual bits, the end beat, idle. -/
def EncUnit.finish (rom : Rom) (u : EncUnit) : EncUnit :=
  let last := if u.cnt.toNat > 0 then [eoSymbol (symbolFor rom u.padGroup.toNat)] else []
  (u.emit (last ++ [eoEnd])).toIdle

/-- `E.cnt = 3` is no state of the hardware (rule R15): the model refuses it (assumption log 6). -/
def EncUnit.guarded (f : EncUnit → EncUnit) (u : EncUnit) : UnitOutcome EncUnit :=
  if u.cnt = 3 then .refused .encCounterIllegal else .next (f u)

/-- `EBYTE d` (rule R71). -/
def execEbyte (d : Byte) (s : State) : Host.Outcome State Fault Refusal :=
  s.onEnc (EncUnit.guarded (EncUnit.takeByte s.cfg.rom d))

/-- `EEND` (rule R73). -/
def execEend (s : State) : Host.Outcome State Fault Refusal :=
  s.onEnc (EncUnit.guarded (EncUnit.finish s.cfg.rom))

end Sys2Proof.Machine
end

