-- ==== Sys2Proof/Machine/Dispatch.lean ====
section
/-! DEFINITION. One arm for each command: a direct call of its meaning. -/

namespace Sys2Proof.Machine

def exec (i : Instr) (s : State) : Host.Outcome State Fault Refusal :=
  match i with
  | .ebyte d => Sys2Proof.Machine.execEbyte d s
  | .eend => Sys2Proof.Machine.execEend s
  | .dchar c => Sys2Proof.Machine.execDchar c s
  | .dend => Sys2Proof.Machine.execDend s

end Sys2Proof.Machine
end

