-- ==== Sys2Proof/Machine/Inputs.lean ====
section
/-!
DEFINITION. What the host does to the machine beside its beats (spec rules R13, R131): the reset inputs (rules R117, R119),
reading an output channel (rule R35), which of its moves comes next, where it stands in each message (rule R19 (a)), and how the machine starts with given parameters (rules
R7, R132).
-/

namespace Sys2Proof.Machine

/-- The host's next move, and the state in which the machine meets it: the move is taken off, its instance is selected. -/
def State.nextMove (s : State) : Option (Move × State) :=
  match s.host with
  | [] => none
  | m :: rest => some (m, { s with host := rest, sel := m.inst })

/-- The position in the input message after a host's act (rule R19 (a)): a data beat advances it by one, a closing beat ends
the message (rule R130), a reset abandons it (rule R119), a read is no beat. -/
def positionAfter (a : HostAct) (pos : Nat) : Nat :=
  match a with
  | .beat b => if (decodeBeat b).closes then 0 else pos + 1
  | .reset _ => 0
  | .read _ => pos

/-- The position on the channel a host's act is addressed to moves on; the unit's own state is not touched. -/
def Codec.track (a : HostAct) (m : Codec) : Codec :=
  match a.unit with
  | .enc => { m with encPos := positionAfter a m.encPos }
  | .dec => { m with decPos := positionAfter a m.decPos }

/-- The same on the selected instance of the machine. -/
def State.track (a : HostAct) (s : State) : State :=
  { s with insts := s.insts.modify s.sel (Codec.track a) }

/-- Assertion of a unit's reset input (rules R117, R119): that unit of the selected instance goes to idle, nothing is emitted,
beats already on the output channel stay. -/
def State.resetUnit (s : State) : UnitName → Host.Outcome State Fault Refusal
  | .enc => s.onEnc fun u => .next u.toIdle
  | .dec => s.onDec fun u => .next u.toIdle

/-- The host reads beats of a unit's output channel (rules R11, R35): no state of a unit changes. -/
def State.readOutput (s : State) : UnitName → Host.Outcome State Fault Refusal
  | .enc => s.onEnc .next
  | .dec => s.onDec .next

/-- The state with a beat offered to the selected instance as the host's next move. -/
def State.offer (s : State) (b : Beat) : State :=
  { s with host := ⟨s.sel, .beat b⟩ :: s.host }

/-- The start of a machine that is handed parameters: power-on and reset of every unit; parameters that violate their
constraints are refused (rule R7: "must refuse to run"; spec U17). -/
def State.boot (r : RawParams) : Host.Outcome State Fault Refusal :=
  if h : r.Ok then .next (State.powerOn ⟨r, h⟩) else .refused .badParameters

end Sys2Proof.Machine
end

