-- ==== Sys2Proof/Machine/Step.lean ====
section
/-!
DEFINITION. One step of the machine: the host's next move takes effect (spec rules R11, R13, R131). The position in the message
of the addressed channel moves on (rule R19 (a)); a beat is decoded and run;
with no move pending nothing happens (rules R116, R121; assumption log 10).
-/

namespace Sys2Proof.Machine

/-- What a host's act does to the machine. -/
def runAct (a : HostAct) (s : State) : Host.Outcome State Fault Refusal :=
  match a with
  | .beat b => exec (decodeBeat b) s
  | .reset u => s.resetUnit u
  | .read u => s.readOutput u

/-- One step. -/
def step (s : State) : Host.Outcome State Fault Refusal :=
  match s.nextMove with
  | none => .next s
  | some (m, t) => runAct m.act (t.track m.act)

/-- The state in which the very next step runs the command of the table word `w`: the host offers its beat to the selected
instance (assumption log 13). A word that is no beat changes nothing. -/
def State.withFetchWord (s : State) (nbits w : Nat) : State :=
  match tableBeat nbits w with
  | some b => s.offer b
  | none => s

end Sys2Proof.Machine
end

