-- ==== Sys2Proof/Machine/Reference.lean ====
section
/-!
DEFINITION. The two whole-buffer functions the commands compute beat by beat: `encode` (spec rule R70) and `decode`
(rule R81), written from the bit strings of rules R30 and R31 and not from the units' registers; and well-formed UTF-8
sequences as the table of rule R95 reads. No step uses them: statements compare the units with them.
-/

namespace Sys2Proof.Machine

/-- The eight bits of a byte, most significant first (rule R30). -/
def byteBits (b : Byte) : List Bool :=
  (List.range 8).map fun j => b.getLsbD (7 - j)

/-- The bit string of a byte stream (rule R30). -/
def bitString (bytes : List Byte) : List Bool :=
  bytes.flatMap byteBits

/-- The three bits of a value, most significant first (rule R31). -/
def valBits (v : Val3) : List Bool :=
  (List.range 3).map fun j => v.getLsbD (2 - j)

/-- The number made of the `k` bits from position `start` on, the earliest most significant (rule R31). -/
def bitsFrom (bits : List Bool) (start k : Nat) : Nat :=
  ((List.range k).map fun j => (bits.getD (start + j) false).toNat * 2 ^ (k - 1 - j)).sum

/-- `ceil(8n/3)` (rule R12). -/
def symbolCount (n : Nat) : Nat :=
  (8 * n + 2) / 3

/-- `B'` of rule R70: the bit string followed by zero bits up to a whole number of groups. -/
def paddedBits (bytes : List Byte) : List Bool :=
  bitString bytes ++ List.replicate (3 * symbolCount bytes.length - 8 * bytes.length) false

/-- The values of the 3-bit groups of `B'` (rules R31, R70). -/
def groupValues (bytes : List Byte) : List Nat :=
  (List.range (symbolCount bytes.length)).map fun g => bitsFrom (paddedBits bytes) (3 * g) 3

/-- `encode(b)` of rule R70. -/
def encodeStream (rom : Rom) (bytes : List Byte) : List Chr :=
  (groupValues bytes).map (symbolFor rom)

/-- The result of a decode (rule R81). -/
inductive DecodeResult where
  | ok (bytes : List Byte)
  | invalidSymbol (c : Chr)
  | unexpectedEnd
  | invalidUtf8
  deriving DecidableEq, Repr

/-- Step 1 of rule R81: the stream without its whitespace. -/
def stripWs (ws : List Chr) (chars : List Chr) : List Chr :=
  chars.filter fun c => !isWs ws c

/-- Step 2 of rule R81: the first character that has no value, if there is one. -/
def firstInvalid (rom : Rom) (stripped : List Chr) : Option Chr :=
  stripped.find? fun c => (valueFor rom c).isNone

/-- Step 3 of rule R81: the bit string of the values. -/
def valueBits (rom : Rom) (stripped : List Chr) : List Bool :=
  (stripped.filterMap (valueFor rom)).flatMap valBits

/-- Step 4 of rule R81: the `m` bytes cut from the first `8m` bits. -/
def cutBytes (bits : List Bool) (m : Nat) : List Byte :=
  (List.range m).map fun i => BitVec.ofNat 8 (bitsFrom bits (8 * i) 8)

/-- `decode(s)` of rule R81. -/
def decodeStream (p : Params) (chars : List Chr) : DecodeResult :=
  let stripped := stripWs p.ws chars
  match firstInvalid p.rom stripped with
  | some c => .invalidSymbol c
  | none =>
    let bits := valueBits p.rom stripped
    if 3 * stripped.length % 8 ≥ 3 then .unexpectedEnd
    else
      let out := cutBytes bits (3 * stripped.length / 8)
      if p.utf8Check && !utf8Ok out then .invalidUtf8 else .ok out

/-- The beats a decode result is delivered as (rules R90, R91, R93, R95, R101). -/
def resultBeats : DecodeResult → List DO
  | .ok bytes => bytes.map doByte ++ [doResult Status.ok.code 0]
  | .invalidSymbol c => [doResult Status.invalidSymbol.code c]
  | .unexpectedEnd => [doResult Status.unexpectedEnd.code 0]
  | .invalidUtf8 => [doResult Status.invalidUtf8.code 0]

/-- How many characters of a message the decoder accepts as symbols: those before the first invalid one, whitespace not
counted (rules R84, R86). -/
def acceptedSymbols (p : Params) (chars : List Chr) : Nat :=
  ((stripWs p.ws chars).takeWhile fun c => (valueFor p.rom c).isSome).length

/-- Strictly canonical streams (rule R97): no whitespace, every element in the alphabet, a legal length, and residual bits
that are zero. -/
def StrictlyCanonical (p : Params) (chars : List Chr) : Prop :=
  (∀ c ∈ chars, ∃ v, classify p.rom p.ws c = .symbol v) ∧
  (chars.length % 8 = 0 ∨ chars.length % 8 = 3 ∨ chars.length % 8 = 6) ∧
  ∀ i, 8 * (3 * chars.length / 8) ≤ i → (valueBits p.rom chars).getD i false = false

/-- A well-formed UTF-8 sequence, as the nine rows of the table of rule R95 read. -/
def Utf8Sequence (q : List Byte) : Prop :=
  match q.map BitVec.toNat with
  | [a] => a ≤ 0x7F
  | [a, b] => 0xC2 ≤ a ∧ a ≤ 0xDF ∧ 0x80 ≤ b ∧ b ≤ 0xBF
  | [a, b, c] =>
    0x80 ≤ c ∧ c ≤ 0xBF ∧
    ((a = 0xE0 ∧ 0xA0 ≤ b ∧ b ≤ 0xBF) ∨ (0xE1 ≤ a ∧ a ≤ 0xEC ∧ 0x80 ≤ b ∧ b ≤ 0xBF) ∨
     (a = 0xED ∧ 0x80 ≤ b ∧ b ≤ 0x9F) ∨ (0xEE ≤ a ∧ a ≤ 0xEF ∧ 0x80 ≤ b ∧ b ≤ 0xBF))
  | [a, b, c, d] =>
    0x80 ≤ c ∧ c ≤ 0xBF ∧ 0x80 ≤ d ∧ d ≤ 0xBF ∧
    ((a = 0xF0 ∧ 0x90 ≤ b ∧ b ≤ 0xBF) ∨ (0xF1 ≤ a ∧ a ≤ 0xF3 ∧ 0x80 ≤ b ∧ b ≤ 0xBF) ∨
     (a = 0xF4 ∧ 0x80 ≤ b ∧ b ≤ 0x8F))
  | _ => False

end Sys2Proof.Machine
end

