-- ==== Sys2Proof/Safety.lean ====
section
/-!
DEFINITION. What the claims are stated in: runs of the machine, messages as host moves (spec rule R131), the invariants of the
units (rules R15 to R21), the beats the units can emit (rule R61) and the end of a run (rule R130).
-/

namespace Sys2Proof.Machine

/-- `n` steps of the machine, through the host's interface. -/
def run (n : Nat) (s : State) : Host.Outcome State Fault Refusal :=
  Host.Core.run Sys2Proof.core n s

/-- The state an outcome goes on with, if it goes on. -/
def nextState? : Host.Outcome State Fault Refusal → Option State
  | .next s => some s
  | .fault _ => none
  | .refused _ => none

/-- The reason of a refusal, if the outcome is one. -/
def refusal? : Host.Outcome State Fault Refusal → Option Refusal
  | .next _ => none
  | .fault _ => none
  | .refused r => some r

/-- The reason of a fault, if the outcome is one. -/
def fault? : Host.Outcome State Fault Refusal → Option Fault
  | .next _ => none
  | .fault r => some r
  | .refused _ => none

/-- Commands offered to instance `k`, one beat each, in order. -/
def movesOf (k : Nat) (commands : List Instr) : List Move :=
  commands.map fun i => ⟨k, .beat (encode i)⟩

/-- The unit is idle (rule R27). -/
def EncUnit.isIdle (u : EncUnit) : Prop :=
  u.acc = 0 ∧ u.cnt = 0

/-- The unit is idle (rule R27). -/
def DecUnit.isIdle (u : DecUnit) : Prop :=
  u.acc = 0 ∧ u.nbits = 0 ∧ u.bad = false ∧ u.badch = 0 ∧ u.obuf = []

/-- The encoder's invariant (rules R14 to R16): `E.cnt` is 0, 1 or 2 and `E.acc < 2^E.cnt`. -/
def EncUnit.Inv (u : EncUnit) : Prop :=
  u.cnt.toNat ≤ 2 ∧ u.acc.toNat < 2 ^ u.cnt.toNat

/-- The decoder's invariant (rules R17, R18, R20, R21): `D.acc < 2^D.nbits`; `D.badch` is 0 while `D.bad = 0` and an invalid
character while `D.bad = 1`; `D.obuf` holds at most `OBUF_CAP` bytes. -/
def DecUnit.Inv (p : Params) (u : DecUnit) : Prop :=
  u.acc.toNat < 2 ^ u.nbits.toNat ∧
  (u.bad = false → u.badch = 0) ∧
  (u.bad = true → classify p.rom p.ws u.badch = .invalid u.badch) ∧
  ∀ cap, p.obufCap = some cap → u.obuf.length ≤ cap

/-- The invariant of an instance: its units' invariants; `E.cnt` is the phase of the position in the message (rule R16);
a decoder whose channel has no message open is idle (rules R27, R94, R117). -/
def Codec.Inv (p : Params) (m : Codec) : Prop :=
  m.enc.Inv ∧ m.dec.Inv p ∧ m.enc.cnt.toNat = 8 * m.encPos % 3 ∧ (m.decPos = 0 → m.dec.isIdle)

/-- The machine's invariant: `N_INST` instances, one of them selected, every instance in its invariant. -/
def State.Inv (s : State) : Prop :=
  s.insts.length = s.cfg.nInst ∧ s.sel < s.cfg.nInst ∧ ∀ m ∈ s.insts, m.Inv s.cfg

/-- The `EO` words of rule R61: the eight symbol beats and the end beat. -/
def LegalEO (p : Params) (w : EO) : Prop :=
  w = 0x200000 ∨ ∃ v : Val3, w = 0#1 ++ symbolFor p.rom v.toNat

/-- The `DO` words of rule R61: the byte beats, the `OK`, `UnexpectedEnd` and `InvalidUtf8` result beats, and the
`InvalidSymbol` result beats of characters neither in `SYM` nor in `WS`. -/
def LegalDO (p : Params) (w : DO) : Prop :=
  (∃ b : Byte, w = b.setWidth 24) ∨ w = 0x800000 ∨ w = 0xC00000 ∨ w = 0xE00000 ∨
  ∃ c : Chr, valueFor p.rom c = none ∧ isWs p.ws c = false ∧ w = 0xA00000 ||| c.setWidth 24

/-- Every beat on every output channel is one of those of rule R61. -/
def State.OutputsLegal (s : State) : Prop :=
  ∀ m ∈ s.insts, (∀ w ∈ m.enc.out, LegalEO s.cfg w) ∧ ∀ w ∈ m.dec.out, LegalDO s.cfg w

/-- No message is open on either input channel of the instance: each that has begun is closed by its `EEND` or `DEND`
(or abandoned by a reset, rule R119). -/
def Codec.noMessageOpen (m : Codec) : Prop :=
  m.encPos = 0 ∧ m.decPos = 0

/-- A run is over (rule R130): every message the host offers is closed and consumed, so no move is pending and no message is
open, and every unit is idle. -/
def State.runOver (s : State) : Prop :=
  s.host = [] ∧ ∀ m ∈ s.insts, m.noMessageOpen ∧ m.enc.isIdle ∧ m.dec.isIdle

/-- The decode result of a message fits `D.obuf` (the host's duty of rules R124, R131). -/
def fitsBuffer (p : Params) (chars : List Chr) : Prop :=
  ∀ cap, p.obufCap = some cap → 3 * acceptedSymbols p chars / 8 ≤ cap

end Sys2Proof.Machine
end

