-- ==== Sys2Proof/Certificates/Slice0/Obligations.lean ====
section
/-!
DEFINITION. The statements about the model. Each docstring names the rule of the spec it formalises, or says that it rests on a
choice of the model's and names the log entry.
-/

open Sys2Proof Sys2Proof.Machine

/-! ### Encodings -/

/-- Rule R54 (the spec's decision D4, D6): on each channel a word is the command of a row when `w & mask = match`, and the two rows of a channel part all
its words between them. -/
def Obligations.CommandMapFollowsTheTable : Prop :=
  (∀ w : EI,
    (w &&& 0x100 = 0x000 → decodeEI w = .ebyte (w.setWidth 8)) ∧
    (w &&& 0x100 = 0x100 → decodeEI w = .eend) ∧
    (w &&& 0x100 = 0x000 ∨ w &&& 0x100 = 0x100)) ∧
  (∀ w : DI,
    (w &&& 0x200000 = 0x000000 → decodeDI w = .dchar (w.setWidth 21)) ∧
    (w &&& 0x200000 = 0x200000 → decodeDI w = .dend) ∧
    (w &&& 0x200000 = 0x000000 ∨ w &&& 0x200000 = 0x200000))

/-- Rule R55 (the spec's decision D4, D6): every value of the ignored field gives the same command, and the canonical words are 0x100 and 0x200000. -/
def Obligations.IgnoredFieldsDoNotMatter : Prop :=
  (∀ d : Byte, decodeEI (1#1 ++ d) = .eend) ∧ (∀ c : Chr, decodeDI (1#1 ++ c) = .dend) ∧
  encode .eend = .ei 0x100 ∧ encode .dend = .di 0x200000

/-- Words of the spec's programs P1, P3 and vectors V-E18, V-D24 decode to their commands. That an `EI` word is read from a
container of 16 bits and a `DI` word from one of 24 bits is the model's choice (log 12): the spec gives the words and commands. -/
def Obligations.WordsOfTheProgramsDecode : Prop :=
  decodeTableWord 16 0x041 = some (.ebyte 0x41) ∧ decodeTableWord 16 0x1FF = some .eend ∧
  decodeTableWord 24 0x00611B = some (.dchar 0x611B) ∧ decodeTableWord 24 0x3FFFFF = some .dend

/-- Decode and encode agree: every command, with every value of its operand, comes back from its beat, on the channel and
from the table word's container (16 bits for `EI`, 24 bits for `DI`: the model's choice, log 12). -/
def Obligations.DecodeInvertsEncode : Prop :=
  ∀ i : Instr, decodeBeat (encode i) = i ∧
    (i.unit = .enc → decodeTableWord 16 (encode i).toNat = some i) ∧
    (i.unit = .dec → decodeTableWord 24 (encode i).toNat = some i)

/-- Encode inverts decode exactly on the canonical beats of rule R55: data beats, and closing beats with operand bits 0. -/
def Obligations.EncodeInvertsDecodeOnCanonicalBeats : Prop :=
  (∀ w : EI, encode (decodeEI w) = .ei w ↔ (w.getLsbD 8 = true → w.setWidth 8 = 0#8)) ∧
  (∀ w : DI, encode (decodeDI w) = .di w ↔ (w.getLsbD 21 = true → w.setWidth 21 = 0#21))

/-- A step runs the decoded command of the beat the host offers next, on the instance it is offered to. Around the command,
the position in the message of that channel moves on (rule R19 (a); log 21): by one with a data beat, to 0 with a closing one. -/
def Obligations.StepRunsTheOfferedBeat : Prop :=
  ∀ (s : State) (k : Nat) (b : Beat) (rest : List Move), s.host = ⟨k, .beat b⟩ :: rest →
    let after : Nat → Nat := fun pos => if (decodeBeat b).closes then 0 else pos + 1
    step s = exec (decodeBeat b) { s with
      host := rest, sel := k,
      insts := s.insts.modify k fun m =>
        if b.unit = .enc then { m with encPos := after m.encPos } else { m with decPos := after m.decPos } }

/-- A step after `withFetchWord` runs the command the decoder reads from the table word (its container is the model's choice,
log 12), in the state as it was (that the word is offered to the selected instance is the model's choice, log 13); only the
position in the message of the command's channel has moved on (log 21). -/
def Obligations.StepRunsTheFetchedTableWord : Prop :=
  ∀ (s : State) (nbits w : Nat) (i : Instr), decodeTableWord nbits w = some i →
    let after : Nat → Nat := fun pos => if i.closes then 0 else pos + 1
    step (s.withFetchWord nbits w) = exec i { s with
      insts := s.insts.modify s.sel fun m =>
        if i.unit = .enc then { m with encPos := after m.encPos } else { m with decPos := after m.decPos } }

/-! ### The symbol mapping -/

/-- Rule R66 (marked by the spec as derived from rules R63, R64 and R7): the laws of the mapping, for every admissible alphabet. -/
def Obligations.SymbolMappingIsABijection : Prop :=
  ∀ p : Params,
    (∀ v : Val3, valueFor p.rom (symbolFor p.rom v.toNat) = some v) ∧
    (∀ (c : Chr) (v : Val3), valueFor p.rom c = some v → symbolFor p.rom v.toNat = c) ∧
    (∀ x : Nat, symbolFor p.rom x = symbolFor p.rom (x % 8)) ∧
    ∃ l : List Chr, l.Nodup ∧ l.length = 8 ∧ ∀ c, c ∈ l ↔ (valueFor p.rom c).isSome = true

/-- Rule R65 (the spec's decision D15): a code that is no Unicode scalar value is an invalid symbol that carries its raw value. -/
def Obligations.NonScalarCodesAreInvalidSymbols : Prop :=
  ∀ (p : Params) (c : Chr), (0xD800 ≤ c.toNat ∧ c.toNat ≤ 0xDFFF) ∨ 0x110000 ≤ c.toNat →
    valueFor p.rom c = none ∧ isWs p.ws c = false ∧ classify p.rom p.ws c = .invalid c

/-- Rule R68: the three cases of `classify`; the first two exclude each other, so the order of the tests does not matter. -/
def Obligations.ClassifyHasThreeExclusiveCases : Prop :=
  ∀ (p : Params) (c : Chr),
    (classify p.rom p.ws c = .whitespace ↔ isWs p.ws c = true) ∧
    (∀ v, classify p.rom p.ws c = .symbol v ↔ (isWs p.ws c = false ∧ valueFor p.rom c = some v)) ∧
    (∀ c', classify p.rom p.ws c = .invalid c' ↔ (c' = c ∧ isWs p.ws c = false ∧ valueFor p.rom c = none)) ∧
    (∀ v, valueFor p.rom c = some v → isWs p.ws c = false)

/-- The known rows of the alphabet (spec 30_encoding.md section 3), and where U+3002, U+3042 and U+0020 stand (spec V-M5,
V-M6, rule R6), for every admissible choice of the OPEN entries; with the UTF-8 check on, U+3002 has the value 6 or 7 (rule
R7 (e), which rests on the spec's decision D11). -/
def Obligations.KnownAlphabetForEveryChoice : Prop :=
  ∀ p : Params,
    symbolFor p.rom 0 = 0x697D ∧ symbolFor p.rom 1 = 0x53EF ∧ symbolFor p.rom 2 = 0x611B ∧
    symbolFor p.rom 4 = 0x305F ∧ symbolFor p.rom 5 = 0x3057 ∧
    (valueFor p.rom 0x3002 = some 3 ∨ valueFor p.rom 0x3002 = some 6 ∨ valueFor p.rom 0x3002 = some 7) ∧
    (p.utf8Check = true → valueFor p.rom 0x3002 = some 6 ∨ valueFor p.rom 0x3002 = some 7) ∧
    classify p.rom p.ws 0x3042 = .invalid 0x3042 ∧ classify p.rom p.ws 0x0020 = .whitespace

/-- The whitespace set of the machine at reset is the default of 40_symbol_map.md section 3, the spec's own choice (log 3). -/
def Obligations.WhitespaceAtResetIsTheDefault : Prop :=
  ∀ c : Chr, isWs State.reset.cfg.ws c = true ↔
    ((0x0009 ≤ c.toNat ∧ c.toNat ≤ 0x000D) ∨ c = 0x0020 ∨ c = 0x0085 ∨ c = 0x00A0 ∨ c = 0x1680 ∨
     (0x2000 ≤ c.toNat ∧ c.toNat ≤ 0x200A) ∨ c = 0x2028 ∨ c = 0x2029 ∨ c = 0x202F ∨ c = 0x205F ∨ c = 0x3000)

/-! ### The encoder -/

/-- Rule R71, in the unrolled form of rule R72: `EBYTE` completes in each of the three phases, with the values emitted, the
residual bits and the counter of the table, and changes nothing else. -/
def Obligations.EbyteFollowsThePhaseTable : Prop :=
  ∀ (s : State) (m : Codec) (d : Byte), s.codec? = some m →
    let sym : Nat → EO := fun v => 0#1 ++ symbolFor s.cfg.rom v
    (m.enc.cnt = 0 → exec (.ebyte d) s = .next (s.setEnc
      { acc := d.extractLsb' 0 2, cnt := 2,
        out := m.enc.out ++ [sym (d.extractLsb' 5 3).toNat, sym (d.extractLsb' 2 3).toNat] })) ∧
    (m.enc.cnt = 2 → exec (.ebyte d) s = .next (s.setEnc
      { acc := 0#1 ++ d.extractLsb' 0 1, cnt := 1,
        out := m.enc.out ++ [sym (m.enc.acc ++ d.extractLsb' 7 1).toNat, sym (d.extractLsb' 4 3).toNat,
          sym (d.extractLsb' 1 3).toNat] })) ∧
    (m.enc.cnt = 1 → exec (.ebyte d) s = .next (s.setEnc
      { acc := 0, cnt := 0,
        out := m.enc.out ++ [sym (m.enc.acc.extractLsb' 0 1 ++ d.extractLsb' 6 2).toNat, sym (d.extractLsb' 3 3).toNat,
          sym (d.extractLsb' 0 3).toNat] }))

/-- Rule R73: `EEND` completes in each phase: the padded last group if there are residual bits, then the end beat, then idle. -/
def Obligations.EendPadsClosesAndIdles : Prop :=
  ∀ (s : State) (m : Codec), s.codec? = some m →
    let sym : Nat → EO := fun v => 0#1 ++ symbolFor s.cfg.rom v
    (m.enc.cnt = 0 → exec .eend s = .next (s.setEnc { acc := 0, cnt := 0, out := m.enc.out ++ [0x200000] })) ∧
    (m.enc.cnt = 1 → exec .eend s = .next (s.setEnc
      { acc := 0, cnt := 0, out := m.enc.out ++ [sym (m.enc.acc.extractLsb' 0 1 ++ 0#2).toNat, 0x200000] })) ∧
    (m.enc.cnt = 2 → exec .eend s = .next (s.setEnc
      { acc := 0, cnt := 0, out := m.enc.out ++ [sym (m.enc.acc ++ 0#1).toNat, 0x200000] }))

/-- The model's choice (log 6) on a counter value that rule R15 excludes: `EBYTE` and `EEND` are refused by name. -/
def Obligations.EncoderRefusesCounterThree : Prop :=
  ∀ (s : State) (m : Codec) (d : Byte), s.codec? = some m → m.enc.cnt = 3 →
    exec (.ebyte d) s = .refused .encCounterIllegal ∧ exec .eend s = .refused .encCounterIllegal

/-- Frame of `EBYTE` and `EEND`: parameters (the symbol ROM among them), selection, pending moves, every other instance and the
decoder of the same instance are unchanged, and beats already emitted stay in front of the new ones. -/
def Obligations.EncoderCommandsChangeOnlyTheirUnit : Prop :=
  ∀ (i : Instr) (s t : State), i.unit = .enc → exec i s = .next t →
    t.cfg = s.cfg ∧ t.sel = s.sel ∧ t.host = s.host ∧ t.insts.length = s.insts.length ∧
    (∀ k, k ≠ s.sel → t.insts[k]? = s.insts[k]?) ∧
    ∃ m e new, s.codec? = some m ∧ t.codec? = some { m with enc := e } ∧ e.out = m.enc.out ++ new

/-- `EBYTE` and `EEND` read only the parameters and the encoder they act on: two states that agree on these give the same new
encoder, or the same refusal. -/
def Obligations.EncoderCommandsReadOnlyTheirUnit : Prop :=
  ∀ (i : Instr) (s₁ s₂ : State) (m₁ m₂ : Codec), i.unit = .enc → s₁.cfg = s₂.cfg →
    s₁.codec? = some m₁ → s₂.codec? = some m₂ → m₁.enc = m₂.enc →
    (∃ e, exec i s₁ = .next (s₁.setEnc e) ∧ exec i s₂ = .next (s₂.setEnc e)) ∨
    (∃ r, exec i s₁ = .refused r ∧ exec i s₂ = .refused r)

/-- Rule R16 (marked by the spec as derived from rule R71): after `k` `EBYTE` beats of a message `E.cnt = (8k) mod 3`, and the residual bits fit the counter. -/
def Obligations.EncoderPhaseAfterBytes : Prop :=
  ∀ (s : State) (k : Nat) (m : Codec) (bytes : List Byte) (rest : List Move),
    s.insts[k]? = some m → m.enc.isIdle → s.host = movesOf k (bytes.map .ebyte) ++ rest →
    ∃ t u, run bytes.length s = .next t ∧ t.insts[k]? = some u ∧
      u.enc.cnt.toNat = 8 * bytes.length % 3 ∧ u.enc.cnt.toNat ≤ 2 ∧ u.enc.acc.toNat < 2 ^ u.enc.cnt.toNat

/-- Rule R76 (marked by the spec as derived from rules R70, R71 and R73): the beats of a message take an idle encoder through `encode` of rule R70: its symbols in order, one end beat, and
idle again, with no message open on the channel; nothing else of the machine changes. -/
def Obligations.EncoderMessageEqualsReference : Prop :=
  ∀ (s : State) (k : Nat) (m : Codec) (bytes : List Byte) (rest : List Move),
    s.insts[k]? = some m → m.enc.isIdle → s.host = movesOf k (encodeMessage bytes) ++ rest →
    run (bytes.length + 1) s = .next { s with
      host := rest, sel := k,
      insts := s.insts.set k { m with encPos := 0, enc :=
        { acc := 0, cnt := 0,
          out := m.enc.out ++ (encodeStream s.cfg.rom bytes).map (fun c => (0#1 ++ c : EO)) ++ [0x200000] } } }

/-- Rule R75: a message of `n` bytes appends exactly `ceil(8n/3)` symbol beats and one end beat; the three forms of the count. -/
def Obligations.EncoderLengthLaw : Prop :=
  (∀ (s : State) (k : Nat) (m : Codec) (bytes : List Byte) (rest : List Move),
    s.insts[k]? = some m → m.enc.isIdle → s.host = movesOf k (encodeMessage bytes) ++ rest →
    ∃ t u beats, run (bytes.length + 1) s = .next t ∧ t.insts[k]? = some u ∧
      u.enc.out = m.enc.out ++ beats ++ [0x200000] ∧ (∀ w ∈ beats, w.getLsbD 21 = false) ∧
      (beats.length : ℤ) = ⌈(8 * bytes.length : ℚ) / 3⌉) ∧
  (∀ q : Nat, symbolCount (3 * q) = 8 * q ∧ symbolCount (3 * q + 1) = 8 * q + 3 ∧ symbolCount (3 * q + 2) = 8 * q + 6) ∧
  (∀ n : Nat, (symbolCount n : ℤ) = ⌈(8 * n : ℚ) / 3⌉)

/-- Rule R74 (marked by the spec as derived from rules R71 and R73): the value of a message's last symbol is even when `n mod 3 = 1` and a multiple of 4 when `n mod 3 = 2`; its data
bits are the last bits of the stream. -/
def Obligations.LastSymbolIsPaddedWithZeros : Prop :=
  ∀ bytes : List Byte,
    (bytes.length % 3 = 1 → (groupValues bytes).getLast? = some (2 * bitsFrom (bitString bytes) (8 * bytes.length - 2) 2)) ∧
    (bytes.length % 3 = 2 → (groupValues bytes).getLast? = some (4 * bitsFrom (bitString bytes) (8 * bytes.length - 1) 1))

/-- Rule R80 (marked by the spec as derived from rules R70 and R75): encoding is injective, for every admissible alphabet. -/
def Obligations.EncodeIsInjective : Prop :=
  ∀ (p : Params) (b b' : List Byte), encodeStream p.rom b = encodeStream p.rom b' → b = b'

/-- Rule R77: in every state of the invariant, every sequence of `EI` beats on an instance that exists runs to its end. -/
def Obligations.EncoderIsTotal : Prop :=
  ∀ (s : State) (k : Nat) (ws : List EI) (rest : List Move), s.Inv → k < s.cfg.nInst →
    s.host = ws.map (fun w => ⟨k, .beat (.ei w)⟩) ++ rest →
    ∃ t, run ws.length s = .next t ∧ t.host = rest ∧ t.Inv

/-! ### The decoder -/

/-- Rule R83: whitespace changes nothing, in every phase and at every position. -/
def Obligations.DcharWhitespaceChangesNothing : Prop :=
  ∀ (s : State) (m : Codec) (c : Chr), s.codec? = some m → m.dec.bad = false → isWs s.cfg.ws c = true →
    exec (.dchar c) s = .next s

/-- Rule R86 (the spec's decision D18): while `D.bad = 1` no character changes anything. -/
def Obligations.DcharDrainedChangesNothing : Prop :=
  ∀ (s : State) (m : Codec) (c : Chr), s.codec? = some m → m.dec.bad = true → exec (.dchar c) s = .next s

/-- Rule R87 (marked by the spec as derived from rule R84): a symbol completes in each of the eight phases, with the byte, the residual bits and
the counter of the table, and changes nothing else. The three rows that complete a byte need room in `D.obuf` (rule R88). -/
def Obligations.DcharSymbolFollowsThePhaseTable : Prop :=
  ∀ (s : State) (m : Codec) (c : Chr) (v : Val3), s.codec? = some m → m.dec.bad = false →
    isWs s.cfg.ws c = false → valueFor s.cfg.rom c = some v →
    let a := m.dec.acc
    let after : BitVec 7 → BitVec 3 → Prop := fun acc n =>
      exec (.dchar c) s = .next (s.setDec { m.dec with acc := acc, nbits := n })
    let afterByte : Byte → BitVec 7 → BitVec 3 → Prop := fun b acc n =>
      (∀ cap, s.cfg.obufCap = some cap → m.dec.obuf.length < cap) →
      exec (.dchar c) s = .next (s.setDec { m.dec with acc := acc, nbits := n, obuf := m.dec.obuf ++ [b] })
    (m.dec.nbits = 0 → after (0#4 ++ v) 3) ∧
    (m.dec.nbits = 3 → after (0#1 ++ a.extractLsb' 0 3 ++ v) 6) ∧
    (m.dec.nbits = 6 → afterByte (a.extractLsb' 0 6 ++ v.extractLsb' 1 2) (0#6 ++ v.extractLsb' 0 1) 1) ∧
    (m.dec.nbits = 1 → after (0#3 ++ a.extractLsb' 0 1 ++ v) 4) ∧
    (m.dec.nbits = 4 → after (a.extractLsb' 0 4 ++ v) 7) ∧
    (m.dec.nbits = 7 → afterByte (a ++ v.extractLsb' 2 1) (0#5 ++ v.extractLsb' 0 2) 2) ∧
    (m.dec.nbits = 2 → after (0#2 ++ a.extractLsb' 0 2 ++ v) 5) ∧
    (m.dec.nbits = 5 → afterByte (a.extractLsb' 0 5 ++ v) 0 0)

/-- Rule R85: an invalid character is recorded exactly as presented; the other registers keep their values. -/
def Obligations.DcharInvalidLatchesTheCharacter : Prop :=
  ∀ (s : State) (m : Codec) (c : Chr), s.codec? = some m → m.dec.bad = false →
    isWs s.cfg.ws c = false → valueFor s.cfg.rom c = none →
    exec (.dchar c) s = .next (s.setDec { m.dec with bad := true, badch := c })

/-- Rule R88 (the spec's decision D16): `DCHAR` is refused exactly when a symbol would append a byte to a `D.obuf` that holds `OBUF_CAP` bytes; an
unbounded buffer never refuses. -/
def Obligations.DcharRefusedExactlyWhenBufferFull : Prop :=
  ∀ (s : State) (m : Codec) (c : Chr), s.codec? = some m →
    (∀ cap, s.cfg.obufCap = some cap → m.dec.obuf.length ≤ cap) →
    ((exec (.dchar c) s = .refused .obufFull ↔
      m.dec.bad = false ∧ (∃ v, classify s.cfg.rom s.cfg.ws c = .symbol v) ∧ 5 ≤ m.dec.nbits.toNat ∧
      s.cfg.obufCap = some m.dec.obuf.length) ∧
     (s.cfg.obufCap = none → ∃ t, exec (.dchar c) s = .next t))

/-- Rule R90: `DEND` with `D.bad = 1` appends the one beat that names the character, and returns to idle. -/
def Obligations.DendReportsInvalidSymbol : Prop :=
  ∀ (s : State) (m : Codec), s.codec? = some m → m.dec.bad = true →
    exec .dend s = .next (s.setDec
      { acc := 0, nbits := 0, bad := false, badch := 0, obuf := [], out := m.dec.out ++ [1#1 ++ 1#2 ++ m.dec.badch] })

/-- Rule R91 (the spec's decisions D10, D11): with three or more residual bits `DEND` appends the one beat 0xC00000 (`UnexpectedEnd`) and returns to idle; with
fewer, the end is legal: it never reports `UnexpectedEnd`, and the residual bits make no difference, whatever their value. -/
def Obligations.DendEndRule : Prop :=
  ∀ (s : State) (m : Codec), s.codec? = some m → m.dec.bad = false →
    (3 ≤ m.dec.nbits.toNat → exec .dend s = .next (s.setDec
      { acc := 0, nbits := 0, bad := false, badch := 0, obuf := [], out := m.dec.out ++ [0xC00000] })) ∧
    (m.dec.nbits.toNat < 3 →
      (∀ t u, exec .dend s = .next t → t.codec? = some u → u.dec.out ≠ m.dec.out ++ [0xC00000]) ∧
      ∀ (a : BitVec 7) (n : BitVec 3), n.toNat < 3 →
        exec .dend (s.setDec { m.dec with acc := a, nbits := n }) = exec .dend s)

/-- Rule R104: `DEND` appends the one beat 0xE00000 (`InvalidUtf8`) and returns to idle exactly when `D.bad = 0`,
`D.nbits < 3`, `UTF8_CHECK = 1` and `D.obuf` fails the check. -/
def Obligations.DendReportsInvalidUtf8 : Prop :=
  ∀ (s : State) (m : Codec), s.codec? = some m →
    (exec .dend s = .next (s.setDec
      { acc := 0, nbits := 0, bad := false, badch := 0, obuf := [], out := m.dec.out ++ [0xE00000] }) ↔
    m.dec.bad = false ∧ m.dec.nbits.toNat < 3 ∧ s.cfg.utf8Check = true ∧ utf8Ok m.dec.obuf = false)

/-- Rule R93: the success of `DEND` appends one byte beat for each byte of `D.obuf`, in order, then 0x800000 (`OK`). -/
def Obligations.DendDeliversTheBytes : Prop :=
  ∀ (s : State) (m : Codec), s.codec? = some m → m.dec.bad = false → m.dec.nbits.toNat < 3 →
    (s.cfg.utf8Check = false ∨ utf8Ok m.dec.obuf = true) →
    exec .dend s = .next (s.setDec
      { acc := 0, nbits := 0, bad := false, badch := 0, obuf := [],
        out := m.dec.out ++ m.dec.obuf.map (fun b => b.setWidth 24) ++ [0x800000] })

/-- Rules R94 and R107: in every case `DEND` returns to idle, its buffer emptied; it appends either all completed bytes and the
`OK` beat, or exactly one beat: a result beat with a status other than `OK`. -/
def Obligations.ErrorsEmitOneBeatOnly : Prop :=
  ∀ (s : State) (m : Codec), s.codec? = some m →
    ∃ t u, exec .dend s = .next t ∧ t.codec? = some u ∧ u.dec.isIdle ∧
      (u.dec.out = m.dec.out ++ m.dec.obuf.map (fun b => b.setWidth 24) ++ [0x800000] ∨
       ∃ w : DO, u.dec.out = m.dec.out ++ [w] ∧ w.getLsbD 23 = true ∧ w.extractLsb' 21 2 ≠ 0)

/-- Frame of `DCHAR` and `DEND`: parameters, selection, pending moves, every other instance and the encoder of the same instance
are unchanged; beats already emitted stay. `DCHAR` emits nothing and keeps the bytes of `D.obuf` in place. -/
def Obligations.DecoderCommandsChangeOnlyTheirUnit : Prop :=
  ∀ (i : Instr) (s t : State), i.unit = .dec → exec i s = .next t →
    t.cfg = s.cfg ∧ t.sel = s.sel ∧ t.host = s.host ∧ t.insts.length = s.insts.length ∧
    (∀ k, k ≠ s.sel → t.insts[k]? = s.insts[k]?) ∧
    ∃ m d new, s.codec? = some m ∧ t.codec? = some { m with dec := d } ∧ d.out = m.dec.out ++ new ∧
      ∀ c, i = .dchar c → new = [] ∧ ∃ bytes, d.obuf = m.dec.obuf ++ bytes ∧ bytes.length ≤ 1

/-- `DCHAR` and `DEND` read only the parameters and the decoder they act on. -/
def Obligations.DecoderCommandsReadOnlyTheirUnit : Prop :=
  ∀ (i : Instr) (s₁ s₂ : State) (m₁ m₂ : Codec), i.unit = .dec → s₁.cfg = s₂.cfg →
    s₁.codec? = some m₁ → s₂.codec? = some m₂ → m₁.dec = m₂.dec →
    (∃ d, exec i s₁ = .next (s₁.setDec d) ∧ exec i s₂ = .next (s₂.setDec d)) ∨
    (∃ r, exec i s₁ = .refused r ∧ exec i s₂ = .refused r)

/-- Rule R18 (marked by the spec as derived from rule R84): after `k` accepted symbols (whitespace not counted) `D.nbits = (3k) mod 8`, the residual bits fit it, and
`floor(3k/8)` bytes are completed. -/
def Obligations.DecoderPhaseAfterSymbols : Prop :=
  ∀ (s : State) (k : Nat) (m : Codec) (chars : List Chr) (rest : List Move),
    s.insts[k]? = some m → m.dec.isIdle → (∀ c ∈ chars, classify s.cfg.rom s.cfg.ws c ≠ .invalid c) →
    fitsBuffer s.cfg chars → s.host = movesOf k (chars.map .dchar) ++ rest →
    ∃ t u, run chars.length s = .next t ∧ t.insts[k]? = some u ∧
      u.dec.nbits.toNat = 3 * (stripWs s.cfg.ws chars).length % 8 ∧ u.dec.acc.toNat < 2 ^ u.dec.nbits.toNat ∧
      u.dec.obuf.length = 3 * (stripWs s.cfg.ws chars).length / 8

/-- Rule R81: the beats of a message whose result fits `D.obuf` take an idle decoder through `decode`: the result's beats, and
idle again, with no message open on the channel; nothing else of the machine changes. -/
def Obligations.DecoderMessageEqualsReference : Prop :=
  ∀ (s : State) (k : Nat) (m : Codec) (chars : List Chr) (rest : List Move),
    s.insts[k]? = some m → m.dec.isIdle → fitsBuffer s.cfg chars →
    s.host = movesOf k (decodeMessage chars) ++ rest →
    run (chars.length + 1) s = .next { s with
      host := rest, sel := k,
      insts := s.insts.set k { m with decPos := 0, dec :=
        { acc := 0, nbits := 0, bad := false, badch := 0, obuf := [],
          out := m.dec.out ++ resultBeats (decodeStream s.cfg chars) } } }

/-- Rules R88 and R124 (the spec's decision D16): a message whose result does not fit `D.obuf` has no outcome: its run is refused. -/
def Obligations.OverlongMessageIsRefused : Prop :=
  ∀ (s : State) (k : Nat) (m : Codec) (chars : List Chr) (rest : List Move),
    s.insts[k]? = some m → m.dec.isIdle → ¬ fitsBuffer s.cfg chars →
    s.host = movesOf k (decodeMessage chars) ++ rest →
    run (chars.length + 1) s = .refused .obufFull

/-- Rule R92 (marked by the spec as derived from rules R91 and R18): for a message of `L` symbols and no invalid character, `DEND` reports `UnexpectedEnd` exactly when `L mod 8` is 1,
2, 4, 5 or 7; the other lengths are those of the form `ceil(8m/3)`, and then `D.obuf` holds `m = floor(3L/8)` bytes. -/
def Obligations.LegalLengths : Prop :=
  ∀ (s : State) (m : Codec) (chars : List Chr) (rest : List Move),
    s.codec? = some m → m.dec.isIdle → (∀ c ∈ chars, classify s.cfg.rom s.cfg.ws c ≠ .invalid c) →
    fitsBuffer s.cfg chars → s.host = movesOf s.sel (chars.map .dchar) ++ rest →
    let L := (stripWs s.cfg.ws chars).length
    let bad := L % 8 = 1 ∨ L % 8 = 2 ∨ L % 8 = 4 ∨ L % 8 = 5 ∨ L % 8 = 7
    ∃ t u, run chars.length s = .next t ∧ t.codec? = some u ∧
      (exec .dend t = .next (t.setDec
        { acc := 0, nbits := 0, bad := false, badch := 0, obuf := [], out := u.dec.out ++ [0xC00000] }) ↔ bad) ∧
      (¬ bad ↔ ∃ j, L = symbolCount j) ∧
      (∀ j, L = symbolCount j → j = 3 * L / 8 ∧ u.dec.obuf.length = j)

/-- Rule R96 (marked by the spec as derived from rules R84, R91, R93, R95 and R76): decoding what `encode` gives delivers the bytes, or reports `InvalidUtf8` when the check is on and they are not
well-formed UTF-8. -/
def Obligations.RoundTrip : Prop :=
  ∀ (s : State) (k : Nat) (m : Codec) (bytes : List Byte) (rest : List Move),
    s.insts[k]? = some m → m.dec.isIdle → (∀ cap, s.cfg.obufCap = some cap → bytes.length ≤ cap) →
    s.host = movesOf k (decodeMessage (encodeStream s.cfg.rom bytes)) ++ rest →
    run ((encodeStream s.cfg.rom bytes).length + 1) s = .next { s with
      host := rest, sel := k,
      insts := s.insts.set k { m with decPos := 0, dec :=
        { acc := 0, nbits := 0, bad := false, badch := 0, obuf := [],
          out := m.dec.out ++
            if s.cfg.utf8Check = true ∧ utf8Ok bytes = false then [0xE00000]
            else bytes.map (fun b => b.setWidth 24) ++ [0x800000] } } }

/-- Rule R97 (marked by the spec as derived from rules R91 and R74): on strictly canonical streams decode-then-encode is the identity wherever the UTF-8 check passes or is off; the
stream 愛楽し shows that zero residual bits are needed. -/
def Obligations.DecodeThenEncodeOnCanonicalStreams : Prop :=
  (∀ (p : Params) (chars : List Chr), StrictlyCanonical p chars →
    (p.utf8Check = true ∧ decodeStream p chars = .invalidUtf8) ∨
    ∃ bytes, decodeStream p chars = .ok bytes ∧ encodeStream p.rom bytes = chars) ∧
  (∀ p : Params, decodeStream p [0x611B, 0x697D, 0x3057] = .ok [0x42] ∧
    encodeStream p.rom [0x42] = [0x611B, 0x697D, 0x305F])

/-- Rule R98 (marked by the spec as derived from rules R81 and R83): two streams that differ only in whitespace have the same `decode`, and their messages leave the machine in the same
state (or are refused alike), from every state. -/
def Obligations.WhitespaceIsInsignificant : Prop :=
  ∀ (s : State) (k : Nat) (s1 s2 : List Chr) (rest : List Move),
    stripWs s.cfg.ws s1 = stripWs s.cfg.ws s2 →
    decodeStream s.cfg s1 = decodeStream s.cfg s2 ∧
    run (s1.length + 1) { s with host := movesOf k (decodeMessage s1) ++ rest } =
      run (s2.length + 1) { s with host := movesOf k (decodeMessage s2) ++ rest }

/-- Rule R95 (its table is marked by the spec as general knowledge, GK3; log 14): `utf8_ok` holds exactly of the concatenations of well-formed sequences. -/
def Obligations.Utf8OkIsTheNineRowTable : Prop :=
  ∀ out : List Byte, utf8Ok out = true ↔ ∃ qs : List (List Byte), (∀ q ∈ qs, Utf8Sequence q) ∧ out = qs.flatten

/-- Spec V-D17 (V-S9): with the UTF-8 check on the stream 。。。 fails, with `InvalidUtf8`, for every admissible alphabet; with
the check off it gives the one byte 0x6D, 0xDB or 0xFF as 。 is `SYM[3]`, `SYM[6]` or `SYM[7]`. Only the first of these bytes
passes the check, which is why rule R7 (e) excludes `SYM[3]` while the check is on (spec decision D11; log 8). -/
def Obligations.ThreeFullStopsFailWithTheCheck : Prop :=
  (∀ p : Params,
    (p.utf8Check = true → decodeStream p [0x3002, 0x3002, 0x3002] = .invalidUtf8) ∧
    (p.utf8Check = false →
      (p.sym3 = 0x3002 → decodeStream p [0x3002, 0x3002, 0x3002] = .ok [0x6D]) ∧
      (p.sym6 = 0x3002 → decodeStream p [0x3002, 0x3002, 0x3002] = .ok [0xDB]) ∧
      (p.sym7 = 0x3002 → decodeStream p [0x3002, 0x3002, 0x3002] = .ok [0xFF]))) ∧
  utf8Ok [0x6D] = true ∧ utf8Ok [0xDB] = false ∧ utf8Ok [0xFF] = false

/-! ### The whole machine -/

/-- The reset values of 10_state.md section 5: one instance, every register 0, `D.obuf` and both output channels empty; and no
message open (log 21), no move pending (log 13). -/
def Obligations.ResetLeavesEveryUnitIdle : Prop :=
  State.reset.insts =
    [{ enc := { acc := 0, cnt := 0, out := [] },
       dec := { acc := 0, nbits := 0, bad := false, badch := 0, obuf := [], out := [] },
       encPos := 0, decPos := 0 }] ∧
  State.reset.host = [] ∧ State.reset.runOver

/-- The invariant holds at reset, and after the power-on reset of a machine with any admissible parameters. -/
def Obligations.InvariantHoldsAtReset : Prop :=
  State.reset.Inv ∧ ∀ p : Params, (State.powerOn p).Inv

/-- Every step keeps the invariant: `E.cnt` at most 2 and the phase of the position in the message (rule R16), the residual
bits within their counters, `D.badch` 0 or an invalid character, `D.obuf` within `OBUF_CAP`, a decoder with no message open
idle, `N_INST` instances. The positions are those of rule R19 (a) (log 21). -/
def Obligations.StepKeepsInvariant : Prop :=
  ∀ s t : State, s.Inv → step s = .next t → t.Inv

/-- Rule R61 (marked by the spec as derived from rules R48, R50, R71, R73 and R90 to R95): every step keeps the output channels within the beats the units can emit. -/
def Obligations.StepKeepsOutputsLegal : Prop :=
  State.reset.OutputsLegal ∧ ∀ s t : State, s.Inv → s.OutputsLegal → step s = .next t → t.OutputsLegal

/-- Rule R127 (the spec's decision D23): every step on an instance that exists has a next state, or is refused by rule R88. -/
def Obligations.StepIsTotalOrRefusedByCapacity : Prop :=
  ∀ s : State, s.Inv → (∀ mv rest, s.host = mv :: rest → mv.inst < s.cfg.nInst) →
    (∃ t, step s = .next t) ∨ (step s = .refused .obufFull ∧ ∃ cap, s.cfg.obufCap = some cap)

/-- Rules R13 and R28: a step changes only the unit its move is addressed to; parameters, every other instance and the other
unit are unchanged, and no beat is taken back from an output channel. -/
def Obligations.StepChangesOnlyTheAddressedUnit : Prop :=
  ∀ (s t : State) (mv : Move) (rest : List Move), s.host = mv :: rest → step s = .next t →
    t.cfg = s.cfg ∧ t.host = rest ∧ t.sel = mv.inst ∧ t.insts.length = s.insts.length ∧
    (∀ k, k ≠ mv.inst → t.insts[k]? = s.insts[k]?) ∧
    ∃ m u, s.insts[mv.inst]? = some m ∧ t.insts[mv.inst]? = some u ∧
      (∃ new, u.enc.out = m.enc.out ++ new) ∧ (∃ new, u.dec.out = m.dec.out ++ new) ∧
      (mv.act.unit = .enc → u.dec = m.dec ∧ u.decPos = m.decPos) ∧
      (mv.act.unit = .dec → u.enc = m.enc ∧ u.encPos = m.encPos)

/-- Rule R41: moves on different units or instances may be taken in either order. -/
def Obligations.IndependentMovesCommute : Prop :=
  ∀ (s t : State) (a b : Move) (rest : List Move), a.inst ≠ b.inst ∨ a.act.unit ≠ b.act.unit →
    run 2 { s with host := a :: b :: rest } = .next t →
    ∃ t', run 2 { s with host := b :: a :: rest } = .next t' ∧ t'.insts = t.insts ∧ t'.cfg = t.cfg ∧ t'.host = t.host

/-- Rule R117 (the spec's decision D17): asserting a unit's reset sets that unit to idle, whatever its state, and emits nothing; beats already emitted stay
(rule R119), its message is abandoned (no message is open on its channel: log 21), and nothing else changes. -/
def Obligations.ResetInputSetsOneUnitIdle : Prop :=
  ∀ (s : State) (k : Nat) (m : Codec) (rest : List Move), s.insts[k]? = some m →
    step { s with host := ⟨k, .reset .enc⟩ :: rest } = .next { s with
      host := rest, sel := k, insts := s.insts.set k { m with enc := { acc := 0, cnt := 0, out := m.enc.out }, encPos := 0 } } ∧
    step { s with host := ⟨k, .reset .dec⟩ :: rest } = .next { s with
      host := rest, sel := k, insts := s.insts.set k { m with dec :=
        { acc := 0, nbits := 0, bad := false, badch := 0, obuf := [], out := m.dec.out }, decPos := 0 } }

/-- Rules R35, R116 and R121 (waiting as a step is the model's choice, log 10): reading an output channel changes no unit, and a machine that is offered nothing keeps its state. -/
def Obligations.ReadingAndWaitingChangeNothing : Prop :=
  (∀ (s : State) (k : Nat) (m : Codec) (u : UnitName) (rest : List Move), s.insts[k]? = some m →
    step { s with host := ⟨k, .read u⟩ :: rest } = .next { s with host := rest, sel := k }) ∧
  (∀ s : State, s.host = [] → step s = .next s)

/-- Rule R7 (a) to (e), with the constraints of rule R6 on `WS` and `N_INST` and of rule R65 (scalar values; log 8): parameters
that violate a constraint are refused; all others start the machine idle with those parameters. Rule R7 asks the refusal for
(a) to (d); that (e) is refused alike is the model's choice (log 8). -/
def Obligations.BootRefusesExactlyBadParameters : Prop :=
  ∀ r : RawParams,
    let sym : Nat → Chr := symbolFor r.rom
    let good : Prop :=
      (∀ i < 8, ∀ j < 8, sym i = sym j → i = j) ∧ (∀ i < 8, sym i ∉ r.ws) ∧
      (sym 3 = 0x3002 ∨ sym 6 = 0x3002 ∨ sym 7 = 0x3002) ∧ (∀ i < 8, sym i ≠ 0x3042) ∧
      (r.utf8Check = true → sym 3 ≠ 0x3002) ∧
      0x0020#21 ∈ r.ws ∧ 0x3042#21 ∉ r.ws ∧
      (∀ i < 8, (sym i).toNat < 0xD800 ∨ (0xE000 ≤ (sym i).toNat ∧ (sym i).toNat < 0x110000)) ∧
      (∀ c ∈ r.ws, c.toNat < 0xD800 ∨ (0xE000 ≤ c.toNat ∧ c.toNat < 0x110000)) ∧ 1 ≤ r.nInst
    (¬ good → State.boot r = .refused .badParameters) ∧
    (good → ∃ t, State.boot r = .next t ∧ t.cfg.toRawParams = r ∧ t.insts.length = r.nInst ∧ t.runOver)

/-- The model's choice (log 9): a move on an instance that does not exist faults. -/
def Obligations.MissingInstanceFaults : Prop :=
  ∀ (s : State) (mv : Move) (rest : List Move), s.host = mv :: rest → s.insts[mv.inst]? = none →
    step s = .fault .noSuchInstance

/-- Rules R41, R42 and R29: the messages offered to one unit come out whole and in order, each as if it were the only one. -/
def Obligations.MessagesComeOutInOrder : Prop :=
  (∀ (s : State) (k : Nat) (m : Codec) (msgs : List (List Byte)) (rest : List Move),
    s.insts[k]? = some m → m.enc.isIdle → m.encPos = 0 → s.host = movesOf k (msgs.flatMap encodeMessage) ++ rest →
    ∃ t, run (msgs.flatMap encodeMessage).length s = .next t ∧ t.host = rest ∧
      t.insts[k]? = some { m with encPos := 0, enc :=
        { acc := 0, cnt := 0,
          out := m.enc.out ++
            msgs.flatMap (fun b => (encodeStream s.cfg.rom b).map (fun c => (0#1 ++ c : EO)) ++ [0x200000]) } }) ∧
  (∀ (s : State) (k : Nat) (m : Codec) (msgs : List (List Chr)) (rest : List Move),
    s.insts[k]? = some m → m.dec.isIdle → m.decPos = 0 → (∀ cs ∈ msgs, fitsBuffer s.cfg cs) →
    s.host = movesOf k (msgs.flatMap decodeMessage) ++ rest →
    ∃ t, run (msgs.flatMap decodeMessage).length s = .next t ∧ t.host = rest ∧
      t.insts[k]? = some { m with decPos := 0, dec :=
        { acc := 0, nbits := 0, bad := false, badch := 0, obuf := [],
          out := m.dec.out ++ msgs.flatMap (fun cs => resultBeats (decodeStream s.cfg cs)) } })

/-- Rule R130 (marked by the spec as derived from rules R121 and R127): when every message the host offers is closed and consumed, the run is over: no message
is open and both units of every instance are idle. -/
def Obligations.ClosedMessagesEndTheRun : Prop :=
  ∀ (s : State) (msgs : List (Nat × UnitName × List Instr)), s.Inv → s.cfg.obufCap = none →
    (∀ m ∈ s.insts, m.noMessageOpen) →
    (∀ x ∈ msgs, x.1 < s.cfg.nInst ∧ messageWellFormed x.2.1 x.2.2 = true) →
    s.host = msgs.flatMap (fun x => movesOf x.1 x.2.2) →
    ∃ t, run s.host.length s = .next t ∧ t.runOver

/-- Rules R121 and R130 (marked by the spec as derived) and U8: a message that has begun and is not closed is not final. After
its data beats, with nothing more offered, the run is not over (even where the registers are those of the idle state), a
decoder has emitted nothing, and the machine keeps its state however long it waits. The position is that of log 21. -/
def Obligations.UnclosedMessageIsNotFinal : Prop :=
  (∀ (s : State) (k : Nat) (m : Codec) (bytes : List Byte),
    s.insts[k]? = some m → m.enc.cnt ≠ 3 → bytes ≠ [] → s.host = movesOf k (bytes.map .ebyte) →
    ∃ t u, run bytes.length s = .next t ∧ t.insts[k]? = some u ∧ u.encPos = m.encPos + bytes.length ∧
      t.host = [] ∧ ¬ t.runOver ∧ ∀ n, run n t = .next t) ∧
  (∀ (s : State) (k : Nat) (m : Codec) (chars : List Chr),
    s.insts[k]? = some m → m.dec.isIdle → fitsBuffer s.cfg chars → chars ≠ [] → s.host = movesOf k (chars.map .dchar) →
    ∃ t u, run chars.length s = .next t ∧ t.insts[k]? = some u ∧ u.decPos = m.decPos + chars.length ∧
      u.dec.out = m.dec.out ∧ t.host = [] ∧ ¬ t.runOver ∧ ∀ n, run n t = .next t)

/-- Rule R130 (marked by the spec as derived): in every state of the invariant a run is over exactly when nothing is pending
and no message is open; both units are then idle. -/
def Obligations.RunIsOverExactlyWhenNoMessageIsOpen : Prop :=
  ∀ s : State, s.Inv →
    (s.runOver ↔ s.host = [] ∧ ∀ m ∈ s.insts, m.encPos = 0 ∧ m.decPos = 0) ∧
    ((∀ m ∈ s.insts, m.encPos = 0 ∧ m.decPos = 0) → ∀ m ∈ s.insts, m.enc.isIdle ∧ m.dec.isIdle)
end

