-- ==== Sys2Proof/Laws/State.lean ====
section
/-!
SUPPORT. One lemma for each field and each update of the state, so that no proof unfolds a record update.
-/

namespace Sys2Proof.Machine

/-! ### Units -/

@[simp] theorem EncUnit.idle_acc (out : List EO) : (EncUnit.idle out).acc = 0 := rfl
@[simp] theorem EncUnit.idle_cnt (out : List EO) : (EncUnit.idle out).cnt = 0 := rfl
@[simp] theorem EncUnit.idle_out (out : List EO) : (EncUnit.idle out).out = out := rfl

@[simp] theorem DecUnit.idle_acc (out : List DO) : (DecUnit.idle out).acc = 0 := rfl
@[simp] theorem DecUnit.idle_nbits (out : List DO) : (DecUnit.idle out).nbits = 0 := rfl
@[simp] theorem DecUnit.idle_bad (out : List DO) : (DecUnit.idle out).bad = false := rfl
@[simp] theorem DecUnit.idle_badch (out : List DO) : (DecUnit.idle out).badch = 0 := rfl
@[simp] theorem DecUnit.idle_obuf (out : List DO) : (DecUnit.idle out).obuf = [] := rfl
@[simp] theorem DecUnit.idle_out (out : List DO) : (DecUnit.idle out).out = out := rfl

@[simp] theorem EncUnit.emit_acc (l : List EO) (u : EncUnit) : (u.emit l).acc = u.acc := rfl
@[simp] theorem EncUnit.emit_cnt (l : List EO) (u : EncUnit) : (u.emit l).cnt = u.cnt := rfl
@[simp] theorem EncUnit.emit_out (l : List EO) (u : EncUnit) : (u.emit l).out = u.out ++ l := rfl

@[simp] theorem DecUnit.emit_acc (l : List DO) (u : DecUnit) : (u.emit l).acc = u.acc := rfl
@[simp] theorem DecUnit.emit_nbits (l : List DO) (u : DecUnit) : (u.emit l).nbits = u.nbits := rfl
@[simp] theorem DecUnit.emit_bad (l : List DO) (u : DecUnit) : (u.emit l).bad = u.bad := rfl
@[simp] theorem DecUnit.emit_badch (l : List DO) (u : DecUnit) : (u.emit l).badch = u.badch := rfl
@[simp] theorem DecUnit.emit_obuf (l : List DO) (u : DecUnit) : (u.emit l).obuf = u.obuf := rfl
@[simp] theorem DecUnit.emit_out (l : List DO) (u : DecUnit) : (u.emit l).out = u.out ++ l := rfl

theorem EncUnit.toIdle_eq (u : EncUnit) : u.toIdle = EncUnit.idle u.out := rfl
theorem DecUnit.toIdle_eq (u : DecUnit) : u.toIdle = DecUnit.idle u.out := rfl

@[simp] theorem DecUnit.report_out (st : Status) (c : Chr) (u : DecUnit) :
    (u.report st c).out = u.out ++ [doResult st.code c] := rfl

@[simp] theorem DecUnit.latch_acc (c : Chr) (u : DecUnit) : (u.latchInvalidSymbol c).acc = u.acc := rfl
@[simp] theorem DecUnit.latch_nbits (c : Chr) (u : DecUnit) : (u.latchInvalidSymbol c).nbits = u.nbits := rfl
@[simp] theorem DecUnit.latch_bad (c : Chr) (u : DecUnit) : (u.latchInvalidSymbol c).bad = true := rfl
@[simp] theorem DecUnit.latch_badch (c : Chr) (u : DecUnit) : (u.latchInvalidSymbol c).badch = c := rfl
@[simp] theorem DecUnit.latch_obuf (c : Chr) (u : DecUnit) : (u.latchInvalidSymbol c).obuf = u.obuf := rfl
@[simp] theorem DecUnit.latch_out (c : Chr) (u : DecUnit) : (u.latchInvalidSymbol c).out = u.out := rfl

/-! ### The machine -/

@[simp] theorem State.setEnc_cfg (s : State) (e : EncUnit) : (s.setEnc e).cfg = s.cfg := rfl
@[simp] theorem State.setEnc_sel (s : State) (e : EncUnit) : (s.setEnc e).sel = s.sel := rfl
@[simp] theorem State.setEnc_host (s : State) (e : EncUnit) : (s.setEnc e).host = s.host := rfl
@[simp] theorem State.setDec_cfg (s : State) (d : DecUnit) : (s.setDec d).cfg = s.cfg := rfl
@[simp] theorem State.setDec_sel (s : State) (d : DecUnit) : (s.setDec d).sel = s.sel := rfl
@[simp] theorem State.setDec_host (s : State) (d : DecUnit) : (s.setDec d).host = s.host := rfl

@[simp] theorem State.setEnc_length (s : State) (e : EncUnit) : (s.setEnc e).insts.length = s.insts.length := by
  simp [State.setEnc]

@[simp] theorem State.setDec_length (s : State) (d : DecUnit) : (s.setDec d).insts.length = s.insts.length := by
  simp [State.setDec]

theorem State.setEnc_other (s : State) (e : EncUnit) {k : Nat} (h : k ≠ s.sel) :
    (s.setEnc e).insts[k]? = s.insts[k]? := by
  simp [State.setEnc, Ne.symm h]

theorem State.setDec_other (s : State) (d : DecUnit) {k : Nat} (h : k ≠ s.sel) :
    (s.setDec d).insts[k]? = s.insts[k]? := by
  simp [State.setDec, Ne.symm h]

theorem State.setEnc_codec? (s : State) (e : EncUnit) :
    (s.setEnc e).codec? = s.codec?.map fun m => { m with enc := e } := by
  simp [State.setEnc, State.codec?]

theorem State.setDec_codec? (s : State) (d : DecUnit) :
    (s.setDec d).codec? = s.codec?.map fun m => { m with dec := d } := by
  simp [State.setDec, State.codec?]

/-- Replacing the encoder is replacing the selected instance. -/
theorem State.setEnc_eq_set {s : State} {m : Codec} (e : EncUnit) (h : s.codec? = some m) :
    s.setEnc e = { s with insts := s.insts.set s.sel { m with enc := e } } := by
  simp only [State.setEnc, State.codec?] at *
  rw [List.modify_eq_set_getElem?]
  simp [h]

/-- Replacing the decoder is replacing the selected instance. -/
theorem State.setDec_eq_set {s : State} {m : Codec} (d : DecUnit) (h : s.codec? = some m) :
    s.setDec d = { s with insts := s.insts.set s.sel { m with dec := d } } := by
  simp only [State.setDec, State.codec?] at *
  rw [List.modify_eq_set_getElem?]
  simp [h]

/-- Writing back the encoder that is there changes nothing. -/
theorem State.setEnc_self {s : State} {m : Codec} (h : s.codec? = some m) : s.setEnc m.enc = s := by
  rw [State.setEnc_eq_set m.enc h]
  obtain ⟨hlt, rfl⟩ := List.getElem?_eq_some_iff.mp h
  exact congrArg (fun l => { s with insts := l }) (List.set_getElem_self hlt)

/-- Writing back the decoder that is there changes nothing. -/
theorem State.setDec_self {s : State} {m : Codec} (h : s.codec? = some m) : s.setDec m.dec = s := by
  rw [State.setDec_eq_set m.dec h]
  obtain ⟨hlt, rfl⟩ := List.getElem?_eq_some_iff.mp h
  exact congrArg (fun l => { s with insts := l }) (List.set_getElem_self hlt)

@[simp] theorem State.setEnc_setEnc (s : State) (e e' : EncUnit) : (s.setEnc e).setEnc e' = s.setEnc e' := by
  simp [State.setEnc, List.modify_modify_eq, Function.comp_def]

@[simp] theorem State.setDec_setDec (s : State) (d d' : DecUnit) : (s.setDec d).setDec d' = s.setDec d' := by
  simp [State.setDec, List.modify_modify_eq, Function.comp_def]

/-! ### The positions in the messages -/

@[simp] theorem Codec.track_enc (a : HostAct) (m : Codec) : (m.track a).enc = m.enc := by
  cases h : a.unit <;> simp [Codec.track, h]
@[simp] theorem Codec.track_dec (a : HostAct) (m : Codec) : (m.track a).dec = m.dec := by
  cases h : a.unit <;> simp [Codec.track, h]
theorem Codec.track_of_enc {a : HostAct} (m : Codec) (h : a.unit = .enc) :
    m.track a = { m with encPos := positionAfter a m.encPos } := by simp [Codec.track, h]
theorem Codec.track_of_dec {a : HostAct} (m : Codec) (h : a.unit = .dec) :
    m.track a = { m with decPos := positionAfter a m.decPos } := by simp [Codec.track, h]

@[simp] theorem positionAfter_reset (u : UnitName) (n : Nat) : positionAfter (.reset u) n = 0 := rfl
@[simp] theorem positionAfter_read (u : UnitName) (n : Nat) : positionAfter (.read u) n = n := rfl
theorem positionAfter_closing {b : Beat} (n : Nat) (h : (decodeBeat b).closes = true) :
    positionAfter (.beat b) n = 0 := if_pos h
theorem positionAfter_data {b : Beat} (n : Nat) (h : (decodeBeat b).closes = false) :
    positionAfter (.beat b) n = n + 1 := by simp [positionAfter, h]

/-- Everything a beat does to the positions of an instance. -/
theorem Codec.track_beat (b : Beat) (m : Codec) :
    m.track (.beat b) =
      if b.unit = .enc then { m with encPos := if (decodeBeat b).closes then 0 else m.encPos + 1 }
      else { m with decPos := if (decodeBeat b).closes then 0 else m.decPos + 1 } := by
  cases b <;> simp [Codec.track, HostAct.unit, Beat.unit, positionAfter]

/-- A beat's command is one of the beat's unit. -/
theorem decodeBeat_unit (b : Beat) : (decodeBeat b).unit = b.unit := by
  cases b <;> simp only [decodeBeat, decodeEI, decodeDI] <;> split <;> rfl

@[simp] theorem State.track_cfg (a : HostAct) (s : State) : (s.track a).cfg = s.cfg := rfl
@[simp] theorem State.track_sel (a : HostAct) (s : State) : (s.track a).sel = s.sel := rfl
@[simp] theorem State.track_host (a : HostAct) (s : State) : (s.track a).host = s.host := rfl
@[simp] theorem State.track_length (a : HostAct) (s : State) : (s.track a).insts.length = s.insts.length := by
  simp [State.track]
theorem State.track_other (a : HostAct) (s : State) {k : Nat} (h : k ≠ s.sel) :
    (s.track a).insts[k]? = s.insts[k]? := by
  simp [State.track, Ne.symm h]
theorem State.track_codec? (a : HostAct) (s : State) : (s.track a).codec? = s.codec?.map (Codec.track a) := by
  simp [State.track, State.codec?]

/-- Moving the position on is replacing the selected instance. -/
theorem State.track_eq_set {s : State} {m : Codec} (a : HostAct) (h : s.codec? = some m) :
    s.track a = { s with insts := s.insts.set s.sel (m.track a) } := by
  simp only [State.track, State.codec?] at *
  rw [List.modify_eq_set_getElem?]
  simp [h]

/-- A read moves no position. -/
theorem State.track_read (u : UnitName) (s : State) : s.track (.read u) = s := by
  have h : Codec.track (.read u) = id := funext fun m => by cases u <;> rfl
  simp [State.track, h]

@[simp] theorem State.offer_host (s : State) (b : Beat) : (s.offer b).host = ⟨s.sel, .beat b⟩ :: s.host := rfl
@[simp] theorem State.offer_cfg (s : State) (b : Beat) : (s.offer b).cfg = s.cfg := rfl
@[simp] theorem State.offer_insts (s : State) (b : Beat) : (s.offer b).insts = s.insts := rfl
@[simp] theorem State.offer_sel (s : State) (b : Beat) : (s.offer b).sel = s.sel := rfl

end Sys2Proof.Machine
end

