-- ==== Sys2Proof/Laws/Ops.lean ====
section
/-!
SUPPORT. One lemma for each shared operation that says once everything it can do; proofs cite these and do not unfold it.
-/

namespace Sys2Proof.Machine

/-- Everything a step of an encoder can do. -/
theorem State.onEnc_cases (s : State) (f : EncUnit → UnitOutcome EncUnit) :
    (s.codec? = none ∧ s.onEnc f = .fault .noSuchInstance) ∨
    ∃ m, s.codec? = some m ∧
      ((∃ e, f m.enc = .next e ∧ s.onEnc f = .next (s.setEnc e)) ∨
       (∃ r, f m.enc = .fault r ∧ s.onEnc f = .fault r) ∨
       (∃ r, f m.enc = .refused r ∧ s.onEnc f = .refused r)) := by
  cases h : s.codec? with
  | none => simp [State.onEnc, h]
  | some m =>
    refine .inr ⟨m, rfl, ?_⟩
    cases hf : f m.enc with
    | next e => exact .inl ⟨e, rfl, by simp [State.onEnc, h, hf]⟩
    | fault r => exact .inr (.inl ⟨r, rfl, by simp [State.onEnc, h, hf]⟩)
    | refused r => exact .inr (.inr ⟨r, rfl, by simp [State.onEnc, h, hf]⟩)

/-- Everything a step of a decoder can do. -/
theorem State.onDec_cases (s : State) (f : DecUnit → UnitOutcome DecUnit) :
    (s.codec? = none ∧ s.onDec f = .fault .noSuchInstance) ∨
    ∃ m, s.codec? = some m ∧
      ((∃ d, f m.dec = .next d ∧ s.onDec f = .next (s.setDec d)) ∨
       (∃ r, f m.dec = .fault r ∧ s.onDec f = .fault r) ∨
       (∃ r, f m.dec = .refused r ∧ s.onDec f = .refused r)) := by
  cases h : s.codec? with
  | none => simp [State.onDec, h]
  | some m =>
    refine .inr ⟨m, rfl, ?_⟩
    cases hf : f m.dec with
    | next e => exact .inl ⟨e, rfl, by simp [State.onDec, h, hf]⟩
    | fault r => exact .inr (.inl ⟨r, rfl, by simp [State.onDec, h, hf]⟩)
    | refused r => exact .inr (.inr ⟨r, rfl, by simp [State.onDec, h, hf]⟩)

/-- A step of an encoder that goes on has replaced that encoder by what the unit answers. -/
theorem State.onEnc_eq_next {s t : State} {f : EncUnit → UnitOutcome EncUnit} :
    s.onEnc f = .next t ↔ ∃ m e, s.codec? = some m ∧ f m.enc = .next e ∧ t = s.setEnc e := by
  rcases s.onEnc_cases f with ⟨h, hs⟩ | ⟨m, h, ⟨e, hf, hs⟩ | ⟨r, hf, hs⟩ | ⟨r, hf, hs⟩⟩
  · simp [h, hs]
  all_goals simp [h, hs, hf, eq_comm]

/-- A step of a decoder that goes on has replaced that decoder by what the unit answers. -/
theorem State.onDec_eq_next {s t : State} {f : DecUnit → UnitOutcome DecUnit} :
    s.onDec f = .next t ↔ ∃ m d, s.codec? = some m ∧ f m.dec = .next d ∧ t = s.setDec d := by
  rcases s.onDec_cases f with ⟨h, hs⟩ | ⟨m, h, ⟨e, hf, hs⟩ | ⟨r, hf, hs⟩ | ⟨r, hf, hs⟩⟩
  · simp [h, hs]
  all_goals simp [h, hs, hf, eq_comm]

/-- A step of an encoder that exists and goes on. -/
theorem State.onEnc_next {s : State} {m : Codec} {f : EncUnit → UnitOutcome EncUnit} {e : EncUnit}
    (h : s.codec? = some m) (hf : f m.enc = .next e) : s.onEnc f = .next (s.setEnc e) :=
  State.onEnc_eq_next.mpr ⟨m, e, h, hf, rfl⟩

/-- A step of a decoder that exists and goes on. -/
theorem State.onDec_next {s : State} {m : Codec} {f : DecUnit → UnitOutcome DecUnit} {d : DecUnit}
    (h : s.codec? = some m) (hf : f m.dec = .next d) : s.onDec f = .next (s.setDec d) :=
  State.onDec_eq_next.mpr ⟨m, d, h, hf, rfl⟩

/-- The move the machine takes next. -/
theorem State.nextMove_cons {s : State} {m : Move} {rest : List Move} (h : s.host = m :: rest) :
    s.nextMove = some (m, { s with host := rest, sel := m.inst }) := by
  simp [State.nextMove, h]

/-- With no move pending there is none to take. -/
theorem State.nextMove_nil {s : State} (h : s.host = []) : s.nextMove = none := by
  simp [State.nextMove, h]

/-- The offered beat is the next move, met in the state it was offered to. -/
theorem State.nextMove_offer (s : State) (b : Beat) : (s.offer b).nextMove = some (⟨s.sel, .beat b⟩, s) := rfl

/-- Starting with given parameters answers only in these two ways. -/
theorem State.boot_cases (r : RawParams) :
    (∃ h : r.Ok, State.boot r = .next (State.powerOn ⟨r, h⟩)) ∨
    (¬ r.Ok ∧ State.boot r = .refused .badParameters) := by
  by_cases h : r.Ok
  · exact .inl ⟨h, dif_pos h⟩
  · exact .inr ⟨h, dif_neg h⟩

end Sys2Proof.Machine
end

