-- ==== Sys2Proof/Laws/Commands.lean ====
section
/-!
SUPPORT. One lemma for each command that says where it goes on and to which unit state, one that inverts a step that went on,
and the same for the host's other acts and for the step itself.
-/

namespace Sys2Proof.Machine

/-- The guard of the encoder's counter lets every other value through. -/
theorem EncUnit.guarded_next {f : EncUnit → EncUnit} {u : EncUnit} (h : u.cnt ≠ 3) :
    EncUnit.guarded f u = .next (f u) :=
  if_neg h

theorem EncUnit.guarded_refused {f : EncUnit → EncUnit} {u : EncUnit} (h : u.cnt = 3) :
    EncUnit.guarded f u = .refused .encCounterIllegal :=
  if_pos h

theorem EncUnit.guarded_eq_next {f : EncUnit → EncUnit} {u e : EncUnit} :
    EncUnit.guarded f u = .next e ↔ u.cnt ≠ 3 ∧ e = f u := by
  by_cases h : u.cnt = 3
  · rw [EncUnit.guarded_refused h]
    exact ⟨fun hn => (by cases hn), fun hn => absurd h hn.1⟩
  · rw [EncUnit.guarded_next h]
    exact ⟨fun hn => ⟨h, (Host.Outcome.next.inj hn).symm⟩, fun hn => by rw [hn.2]⟩

theorem exec_ebyte {s : State} {m : Codec} (d : Byte) (h : s.codec? = some m) (hc : m.enc.cnt ≠ 3) :
    exec (.ebyte d) s = .next (s.setEnc (m.enc.takeByte s.cfg.rom d)) :=
  State.onEnc_next (f := EncUnit.guarded (EncUnit.takeByte s.cfg.rom d)) h (EncUnit.guarded_next hc)

theorem exec_eend {s : State} {m : Codec} (h : s.codec? = some m) (hc : m.enc.cnt ≠ 3) :
    exec .eend s = .next (s.setEnc (m.enc.finish s.cfg.rom)) :=
  State.onEnc_next (f := EncUnit.guarded (EncUnit.finish s.cfg.rom)) h (EncUnit.guarded_next hc)

theorem exec_dchar {s : State} {m : Codec} (c : Chr) (h : s.codec? = some m) (hc : m.dec.overflows s.cfg c = false) :
    exec (.dchar c) s = .next (s.setDec (m.dec.takeChar s.cfg c)) :=
  State.onDec_next
    (f := fun u => if u.overflows s.cfg c then .refused .obufFull else .next (u.takeChar s.cfg c)) h (by simp [hc])

theorem exec_dchar_refused {s : State} {m : Codec} (c : Chr) (h : s.codec? = some m)
    (hc : m.dec.overflows s.cfg c = true) : exec (.dchar c) s = .refused .obufFull := by
  simp [exec, execDchar, State.onDec, h, hc]

theorem exec_dend {s : State} {m : Codec} (h : s.codec? = some m) :
    exec .dend s = .next (s.setDec (m.dec.finish s.cfg)) :=
  State.onDec_next (f := fun u => .next (u.finish s.cfg)) h rfl

theorem exec_ebyte_eq_next {s t : State} {d : Byte} :
    exec (.ebyte d) s = .next t ↔
      ∃ m, s.codec? = some m ∧ m.enc.cnt ≠ 3 ∧ t = s.setEnc (m.enc.takeByte s.cfg.rom d) := by
  refine (State.onEnc_eq_next (f := EncUnit.guarded (EncUnit.takeByte s.cfg.rom d))).trans ?_
  simp [EncUnit.guarded_eq_next, and_assoc]

theorem exec_eend_eq_next {s t : State} :
    exec .eend s = .next t ↔ ∃ m, s.codec? = some m ∧ m.enc.cnt ≠ 3 ∧ t = s.setEnc (m.enc.finish s.cfg.rom) := by
  refine (State.onEnc_eq_next (f := EncUnit.guarded (EncUnit.finish s.cfg.rom))).trans ?_
  simp [EncUnit.guarded_eq_next, and_assoc]

theorem exec_dchar_eq_next {s t : State} {c : Chr} :
    exec (.dchar c) s = .next t ↔
      ∃ m, s.codec? = some m ∧ m.dec.overflows s.cfg c = false ∧ t = s.setDec (m.dec.takeChar s.cfg c) := by
  cases h : s.codec? with
  | none => simp [exec, execDchar, State.onDec, h]
  | some m =>
    cases hc : m.dec.overflows s.cfg c with
    | false =>
      rw [exec_dchar c h hc]
      exact ⟨fun ht => ⟨m, rfl, hc, (Host.Outcome.next.inj ht).symm⟩, fun ⟨m', hm, _, ht⟩ => by cases hm; rw [ht]⟩
    | true =>
      rw [exec_dchar_refused c h hc]
      exact ⟨fun ht => (by cases ht), fun ⟨m', hm, hf, _⟩ => by cases hm; rw [hc] at hf; cases hf⟩

theorem exec_dend_eq_next {s t : State} :
    exec .dend s = .next t ↔ ∃ m, s.codec? = some m ∧ t = s.setDec (m.dec.finish s.cfg) := by
  cases h : s.codec? with
  | none => simp [exec, execDend, State.onDec, h]
  | some m =>
    rw [exec_dend h]
    exact ⟨fun ht => ⟨m, rfl, (Host.Outcome.next.inj ht).symm⟩, fun ⟨m', hm, ht⟩ => by cases hm; rw [ht]⟩

/-- A command on an instance that does not exist faults. -/
theorem exec_missing {s : State} (i : Instr) (h : s.codec? = none) : exec i s = .fault .noSuchInstance := by
  cases i <;> simp [exec, execEbyte, execEend, execDchar, execDend, State.onEnc, State.onDec, h]

/-- Everything the host's other acts can do. -/
theorem State.resetUnit_enc {s : State} {m : Codec} (h : s.codec? = some m) :
    s.resetUnit .enc = .next (s.setEnc m.enc.toIdle) :=
  State.onEnc_next (f := fun u => .next u.toIdle) h rfl

theorem State.resetUnit_dec {s : State} {m : Codec} (h : s.codec? = some m) :
    s.resetUnit .dec = .next (s.setDec m.dec.toIdle) :=
  State.onDec_next (f := fun u => .next u.toIdle) h rfl

theorem State.readOutput_next {s : State} {m : Codec} (u : UnitName) (h : s.codec? = some m) :
    s.readOutput u = .next s := by
  cases u
  · exact (State.onEnc_next (f := .next) h rfl).trans (by rw [State.setEnc_self h])
  · exact (State.onDec_next (f := .next) h rfl).trans (by rw [State.setDec_self h])

/-- An act on an instance that does not exist faults. -/
theorem runAct_missing {s : State} (a : HostAct) (h : s.codec? = none) : runAct a s = .fault .noSuchInstance := by
  cases a with
  | beat b => exact exec_missing _ h
  | reset u => cases u <;> simp [runAct, State.resetUnit, State.onEnc, State.onDec, h]
  | read u => cases u <;> simp [runAct, State.readOutput, State.onEnc, State.onDec, h]

/-- What an act that goes on has done: it has replaced one unit of the selected instance. -/
theorem runAct_eq_next {s t : State} {a : HostAct} (h : runAct a s = .next t) :
    ∃ m, s.codec? = some m ∧
      ((a.unit = .enc ∧ ∃ e, t = s.setEnc e) ∨ (a.unit = .dec ∧ ∃ d, t = s.setDec d)) := by
  cases hm : s.codec? with
  | none => rw [runAct_missing a hm] at h; cases h
  | some m =>
    refine ⟨m, rfl, ?_⟩
    cases a with
    | beat b =>
      cases b with
      | ei w =>
        refine .inl ⟨rfl, ?_⟩
        simp only [runAct, decodeBeat, decodeEI] at h
        split at h
        · obtain ⟨_, _, _, rfl⟩ := exec_eend_eq_next.mp h; exact ⟨_, rfl⟩
        · obtain ⟨_, _, _, rfl⟩ := exec_ebyte_eq_next.mp h; exact ⟨_, rfl⟩
      | di w =>
        refine .inr ⟨rfl, ?_⟩
        simp only [runAct, decodeBeat, decodeDI] at h
        split at h
        · obtain ⟨_, _, rfl⟩ := exec_dend_eq_next.mp h; exact ⟨_, rfl⟩
        · obtain ⟨_, _, _, rfl⟩ := exec_dchar_eq_next.mp h; exact ⟨_, rfl⟩
    | reset u =>
      cases u
      · exact .inl ⟨rfl, _, (Host.Outcome.next.inj ((State.resetUnit_enc hm).symm.trans h)).symm⟩
      · exact .inr ⟨rfl, _, (Host.Outcome.next.inj ((State.resetUnit_dec hm).symm.trans h)).symm⟩
    | read u =>
      have ht : s = t := Host.Outcome.next.inj ((State.readOutput_next u hm).symm.trans h)
      cases u
      · exact .inl ⟨rfl, m.enc, by rw [State.setEnc_self hm, ht]⟩
      · exact .inr ⟨rfl, m.dec, by rw [State.setDec_self hm, ht]⟩

/-- A step takes the host's next move, and the position on its channel moves on. -/
theorem step_cons {s : State} {mv : Move} {rest : List Move} (h : s.host = mv :: rest) :
    step s = runAct mv.act (State.track mv.act { s with host := rest, sel := mv.inst }) := by
  simp [step, State.nextMove_cons h]

/-- With no move pending a step changes nothing. -/
theorem step_nil {s : State} (h : s.host = []) : step s = .next s := by
  simp [step, State.nextMove_nil h]

end Sys2Proof.Machine
end

