-- ==== Sys2Proof/Laws/PerInstr.lean ====
section
/-!
SUPPORT. A statement made for every command, one lemma per constructor: the canonical word of a command fits its channel and
meets the row of its own mnemonic in the table of spec rule R54.
-/

namespace Sys2Proof

/-- A number below `2^21` has bit 21 clear. -/
theorem bit21_clear {n : Nat} (h : n < 2 ^ 21) : n &&& 0x200000 = 0 := by
  have h21 : n.testBit 21 = false := Nat.testBit_lt_two_pow h
  apply Nat.eq_of_testBit_eq
  intro k
  rw [Nat.testBit_and, show (0x200000 : Nat) = 2 ^ 21 from rfl, Nat.testBit_two_pow, Nat.zero_testBit]
  by_cases hk : 21 = k
  · subst hk; simp [h21]
  · simp [hk]

end Sys2Proof

namespace Sys2Proof.Laws.MeetsTableRow

/-- The command's canonical word has the width of its unit's channel and satisfies `w & mask = match` of its row. -/
def Statement (i : Instr) : Prop :=
  i.unit.wordWellFormed (encode i).toNat = true ∧ (encode i).toNat &&& i.tableMask = i.tableMatch

theorem ebyte (d : Byte) : Statement (.ebyte d) := by
  unfold Statement
  revert d
  decide +kernel

theorem eend : Statement .eend := by
  unfold Statement
  decide

theorem dchar (c : Chr) : Statement (.dchar c) := by
  have hw : (encode (.dchar c)).toNat = c.toNat := by
    show (BitVec.ofBool false ++ c).toNat = c.toNat
    rw [BitVec.toNat_append]
    simp
  have hc := c.isLt
  refine ⟨?_, ?_⟩
  · rw [hw]
    show decide (c.toNat < 2 ^ 22) = true
    exact decide_eq_true (by omega)
  · rw [hw]
    exact bit21_clear hc

theorem dend : Statement .dend := by
  unfold Statement
  decide

end Sys2Proof.Laws.MeetsTableRow
end

