-- ==== Sys2Proof/Laws/Slicing.lean ====
section
/-!
SUPPORT. The closed form of the encoder's loop, and what the decoder's commands keep of a unit.
-/

namespace Sys2Proof.Machine

/-- The loop of rule R71 in closed form: group `g` holds the bits `3g` to `3g+2` from the top, `n mod 3` bits are left. -/
theorem sliceGroups_eq (t n : Nat) :
    sliceGroups t n =
      ((List.range (n / 3)).map fun g => BitVec.ofNat 3 (slice t (n - 3 * g - 1) (n - 3 * g - 3)), n % 3) := by
  induction n using Nat.strongRecOn with
  | ind n ih =>
    match n with
    | 0 => rfl
    | 1 => rfl
    | 2 => rfl
    | n + 3 =>
      rw [sliceGroups, ih n (by omega), Nat.add_div_right n (by decide : 0 < 3), List.range_succ_eq_map]
      simp only [List.map_cons, List.map_map, Nat.mul_zero, Nat.sub_zero, Nat.add_mod_right]
      congr 2
      refine List.map_congr_left fun g _ => ?_
      simp only [Function.comp_apply]
      congr 2 <;> omega

/-- A symbol emits nothing and keeps the error record. -/
@[simp] theorem DecUnit.takeSymbol_out (v : Val3) (u : DecUnit) : (u.takeSymbol v).out = u.out := by
  simp only [DecUnit.takeSymbol]; split <;> rfl

@[simp] theorem DecUnit.takeSymbol_bad (v : Val3) (u : DecUnit) : (u.takeSymbol v).bad = u.bad := by
  simp only [DecUnit.takeSymbol]; split <;> rfl

@[simp] theorem DecUnit.takeSymbol_badch (v : Val3) (u : DecUnit) : (u.takeSymbol v).badch = u.badch := by
  simp only [DecUnit.takeSymbol]; split <;> rfl

/-- A symbol appends at most one byte, and one exactly when it completes one. -/
theorem DecUnit.takeSymbol_obuf (v : Val3) (u : DecUnit) :
    ∃ bytes, (u.takeSymbol v).obuf = u.obuf ++ bytes ∧ bytes.length = if u.completesByte then 1 else 0 := by
  simp only [DecUnit.takeSymbol]
  split
  · exact ⟨_, rfl, rfl⟩
  · exact ⟨[], by simp, rfl⟩

/-- Everything a character can do to the unit. -/
theorem DecUnit.takeChar_cases (p : Params) (c : Chr) (u : DecUnit) :
    (u.bad = true ∧ u.takeChar p c = u) ∨
    (u.bad = false ∧ classify p.rom p.ws c = .whitespace ∧ u.takeChar p c = u) ∨
    (∃ v, u.bad = false ∧ classify p.rom p.ws c = .symbol v ∧ u.takeChar p c = u.takeSymbol v) ∨
    (∃ c', u.bad = false ∧ classify p.rom p.ws c = .invalid c' ∧ u.takeChar p c = u.latchInvalidSymbol c') := by
  cases hb : u.bad with
  | true => exact .inl ⟨rfl, by simp [DecUnit.takeChar, hb]⟩
  | false =>
    refine .inr ?_
    cases hc : classify p.rom p.ws c with
    | whitespace => exact .inl ⟨rfl, rfl, by simp [DecUnit.takeChar, hb, hc]⟩
    | symbol v => exact .inr (.inl ⟨v, rfl, rfl, by simp [DecUnit.takeChar, hb, hc]⟩)
    | invalid c' => exact .inr (.inr ⟨c', rfl, rfl, by simp [DecUnit.takeChar, hb, hc]⟩)

/-- Everything `DEND` can do to the unit (rules R89 to R94). -/
theorem DecUnit.finish_cases (p : Params) (u : DecUnit) :
    (u.bad = true ∧ u.finish p = DecUnit.idle (u.out ++ [doResult Status.invalidSymbol.code u.badch])) ∨
    (u.bad = false ∧ 3 ≤ u.nbits.toNat ∧
      u.finish p = DecUnit.idle (u.out ++ [doResult Status.unexpectedEnd.code 0])) ∨
    (u.bad = false ∧ u.nbits.toNat < 3 ∧ p.utf8Check = true ∧ utf8Ok u.obuf = false ∧
      u.finish p = DecUnit.idle (u.out ++ [doResult Status.invalidUtf8.code 0])) ∨
    (u.bad = false ∧ u.nbits.toNat < 3 ∧ (p.utf8Check = false ∨ utf8Ok u.obuf = true) ∧
      u.finish p = DecUnit.idle (u.out ++ (u.obuf.map doByte ++ [doResult Status.ok.code 0]))) := by
  unfold DecUnit.finish
  split
  next h => exact .inl ⟨h, rfl⟩
  next h =>
    have hb : u.bad = false := by simpa using h
    refine .inr ?_
    split
    next hn => exact .inl ⟨hb, hn, rfl⟩
    next hn =>
      have hlt : u.nbits.toNat < 3 := by omega
      refine .inr ?_
      split
      next hu =>
        have hu' : p.utf8Check = true ∧ utf8Ok u.obuf = false := by simpa using hu
        exact .inl ⟨hb, hlt, hu'.1, hu'.2, rfl⟩
      next hu =>
        refine .inr ⟨hb, hlt, ?_, ?_⟩
        · cases hc : p.utf8Check
          · exact .inl rfl
          · exact .inr (by simpa [hc] using hu)
        · show DecUnit.idle ((u.out ++ u.obuf.map doByte) ++ [doResult Status.ok.code 0]) = _
          rw [List.append_assoc]

end Sys2Proof.Machine
end

