-- ==== Sys2Proof/Tests/Slice0.lean ====
section
/-!
SUPPORT. Tests of the model. Expected results come from the spec's test vectors and programs (95_test_vectors.md), named in each
comment, and a witness for the hypotheses of each statement that has some. The OPEN alphabet entries are chosen here for
the tests alone (U+3002 as `SYM[6]`, the letters C and B as the others; log 20).
-/

namespace Sys2Proof.Tests

open Sys2Proof Sys2Proof.Machine

/-! ### A small machine -/

/-- Parameters for the tests: "this system" with sample characters for the OPEN entries. -/
def sample : Params where
  toRawParams := Config.thisSystemRaw 0x43 0x3002 0x42
  ok := Config.admissible_alphabet_exists

/-- The same with a buffer of one byte and the UTF-8 check off. -/
def oneByte : Params where
  toRawParams := { Config.thisSystemRaw 0x43 0x3002 0x42 with obufCap := some 1, utf8Check := false }
  ok := by decide

/-- A machine of one instance. -/
def machine (p : Params) (e : EncUnit) (d : DecUnit) (host : List Move := []) (encPos decPos : Nat := 0) : State where
  cfg := p
  insts := [⟨e, d, encPos, decPos⟩]
  sel := 0
  host := host

/-- An encoder with given registers and an empty channel. -/
def encAt (acc cnt : BitVec 2) : EncUnit := ⟨acc, cnt, []⟩

/-- A decoder with given residual bits and buffer, no error and an empty channel. -/
def decAt (acc : BitVec 7) (nbits : BitVec 3) (obuf : List Byte := []) : DecUnit := ⟨acc, nbits, false, 0, obuf, []⟩

/-- A decoder that has latched U+3042. -/
def decBad : DecUnit := ⟨0, 0, true, 0x3042, [], []⟩

/-- The encoder's state after an outcome. -/
def encOf (o : Host.Outcome State Fault Refusal) : Option EncUnit :=
  (nextState? o).bind fun s => s.codec?.map (·.enc)

/-- The decoder's state after an outcome. -/
def decOf (o : Host.Outcome State Fault Refusal) : Option DecUnit :=
  (nextState? o).bind fun s => s.codec?.map (·.dec)

/-! ### Well-formedness: one ill-formed term for each check -/

theorem test_wordWellFormed_refuses_ten_bits : UnitName.enc.wordWellFormed 0x200 = false := by decide
theorem test_wordWellFormed_refuses_23_bits : UnitName.dec.wordWellFormed 0x400000 = false := by decide
theorem test_message_without_end_refused : messageWellFormed .enc [.ebyte 0x41] = false := by decide
theorem test_message_of_two_units_refused : messageWellFormed .enc [.dchar 0x41, .eend] = false := by decide
theorem test_message_closed_twice_refused : messageWellFormed .dec [.dend, .dend] = false := by decide
theorem test_message_accepted : messageWellFormed .dec (decodeMessage [0x611B, 0x20]) = true := by decide
theorem test_move_on_missing_instance_refused : (Move.mk 1 (.reset .enc)).wellFormed 1 = false := by decide
theorem test_every_command_wellFormed : (Instr.ebyte 0xFF).wellFormed && Instr.eend.wellFormed &&
    (Instr.dchar 0x1FFFFF).wellFormed && Instr.dend.wellFormed = true := by decide

/-- Rules R6, R7 and R65: each constraint refuses some parameters. -/
theorem test_duplicate_symbol_refused : ¬ (Config.thisSystemRaw 0x697D 0x3002 0x42).Ok := by decide
theorem test_whitespace_symbol_refused : ¬ (Config.thisSystemRaw 0x20 0x3002 0x42).Ok := by decide
theorem test_alphabet_without_full_stop_refused : ¬ (Config.thisSystemRaw 0x44 0x43 0x42).Ok := by decide
theorem test_alphabet_with_hiragana_a_refused : ¬ (Config.thisSystemRaw 0x3042 0x3002 0x42).Ok := by decide
/-- Rule R7 (e): U+3002 as `SYM[3]` is refused with the check on, and admitted with the check off. -/
theorem test_full_stop_as_three_refused : ¬ (Config.thisSystemRaw 0x3002 0x43 0x42).Ok := by decide
theorem test_full_stop_as_three_without_check :
    ({ Config.thisSystemRaw 0x3002 0x43 0x42 with utf8Check := false } : RawParams).Ok := by decide
theorem test_surrogate_symbol_refused : ¬ (Config.thisSystemRaw 0xD800 0x3002 0x42).Ok := by decide
theorem test_ws_without_space_refused : ¬ ({ sample.toRawParams with ws := [0x09] } : RawParams).Ok := by decide
theorem test_ws_with_hiragana_a_refused : ¬ ({ sample.toRawParams with ws := [0x20, 0x3042] } : RawParams).Ok := by decide
theorem test_ws_with_surrogate_refused : ¬ ({ sample.toRawParams with ws := [0x20, 0xDFFF] } : RawParams).Ok := by decide
theorem test_no_instance_refused : ¬ ({ sample.toRawParams with nInst := 0 } : RawParams).Ok := by decide

/-! ### Decoding: words written out from the formats of rules R47 and R49 -/

/-- Program P1, step 1: `end` 0, `data` 0100 0001. -/
theorem test_decode_ebyte : decodeEI 0b0_0100_0001#9 = .ebyte 0x41 := by decide
/-- V-E18: `end` 1, `data` all ones. -/
theorem test_decode_eend : decodeEI 0b1_1111_1111#9 = .eend := by decide
/-- Program P3, step 1: `end` 0, `ch` U+611B = 0 0110 0001 0001 1011. -/
theorem test_decode_dchar : decodeDI 0b0_0_0000_0110_0001_0001_1011#22 = .dchar 0x611B := by decide
/-- V-D24: `end` 1, `ch` all ones. -/
theorem test_decode_dend : decodeDI 0b1_1_1111_1111_1111_1111_1111#22 = .dend := by decide
theorem test_decodeWord_rejects_wide_word : (decodeWord .enc 0x241).toOption = none := by decide

/-! ### The symbol mapping -/

/-- V-M2, V-M3: only the low three bits count. -/
theorem test_symbolFor_masks : symbolFor sample.rom 0x41 = 0x53EF ∧ symbolFor sample.rom 0xFA = 0x611B := by decide
/-- V-M4, V-M6 (U+0041 is no symbol of the sample alphabet; log 20). -/
theorem test_valueFor : valueFor sample.rom 0x3057 = some 5 ∧ valueFor sample.rom 0x3042 = none ∧
    valueFor sample.rom 0x41 = none := by decide
/-- V-M8, V-M9: U+3000 and U+00A0 are whitespace, U+200B and U+FEFF are not. -/
theorem test_classify_whitespace : classify sample.rom sample.ws 0x3000 = .whitespace ∧
    classify sample.rom sample.ws 0xA0 = .whitespace := by decide
theorem test_classify_invalid : classify sample.rom sample.ws 0x200B = .invalid 0x200B ∧
    classify sample.rom sample.ws 0xFEFF = .invalid 0xFEFF := by decide

/-! ### The UTF-8 check (the `utf8_ok` vectors of 95_test_vectors.md, section 2.3) -/

theorem test_utf8Ok_accepts : ([[], [0x7F], [0xDF, 0xBF], [0xE0, 0xA0, 0x80], [0xED, 0x9F, 0xBF], [0xF4, 0x8F, 0xBF, 0xBF],
    [0x41, 0xC3, 0xA9, 0x42]] : List (List Byte)).all utf8Ok = true := by decide
theorem test_utf8Ok_rejects : ([[0x80], [0xC1, 0xBF], [0xC2], [0xC2, 0x41], [0xE0, 0x80, 0x80], [0xED, 0xA0, 0x80],
    [0xF0, 0x80, 0x80, 0x80], [0xF4, 0x90, 0x80, 0x80], [0x41, 0xDB]] : List (List Byte)).any utf8Ok = false := by decide

/-! ### The commands -/

/-- Program P1, step 1. -/
theorem test_ebyte_from_idle : encOf (exec (.ebyte 0x41) (machine sample (encAt 0 0) (decAt 0 0))) =
    some ⟨0b01, 2, [0x00611B, 0x00697D]⟩ := by decide
/-- Program P2, step 2. -/
theorem test_ebyte_second_phase : encOf (exec (.ebyte 0x41) (machine sample (encAt 0b01 2) (decAt 0 0))) =
    some ⟨0b01, 1, [0x00611B, 0x00305F, 0x00697D]⟩ := by decide
/-- Program P1, step 2. -/
theorem test_eend_pads : encOf (exec .eend (machine sample (encAt 0b01 2) (decAt 0 0))) =
    some ⟨0, 0, [0x00611B, 0x200000]⟩ := by decide
/-- V-E9: two pad bits. -/
theorem test_eend_two_pad_bits : encOf (exec .eend (machine sample (encAt 0b01 1) (decAt 0 0))) =
    some ⟨0, 0, [0x00305F, 0x200000]⟩ := by decide
/-- Program P3, step 5. -/
theorem test_dchar_completes_byte :
    decOf (exec (.dchar 0x611B) (machine sample (encAt 0 0) (decAt 0b0010000 6))) = some (decAt 0 1 [0x41]) := by decide
/-- Program P5, step 1. -/
theorem test_dchar_invalid : decOf (exec (.dchar 0x3042) (machine sample (encAt 0 0) (decAt 0 0))) = some decBad := by decide
/-- Program P3, step 6. -/
theorem test_dend_delivers : decOf (exec .dend (machine sample (encAt 0 0) (decAt 0 1 [0x41]))) =
    some ⟨0, 0, false, 0, [], [0x000041, 0x800000]⟩ := by decide
/-- Program P5, step 2. -/
theorem test_dend_names_character : decOf (exec .dend (machine sample (encAt 0 0) decBad)) =
    some ⟨0, 0, false, 0, [], [0xA03042]⟩ := by decide
/-- Program P7 (encoder), step 2: the reset clears the residual bits and keeps the beats. -/
theorem test_reset_keeps_beats :
    encOf (step (machine sample ⟨0b01, 2, [0x00611B, 0x00697D]⟩ (decAt 0 0) [⟨0, .reset .enc⟩])) =
    some ⟨0, 0, [0x00611B, 0x00697D]⟩ := by decide
/-- The very first step after reset runs the command of the table word, on every channel. -/
theorem test_step_from_reset_runs_words :
    ([(16, 0x41), (16, 0x100), (24, 0x611B), (24, 0x200000)].map fun x =>
      (nextState? (step (State.reset.withFetchWord x.1 x.2))).isSome) = [true, true, true, true] := by decide

/-- Rule R130 and U8: three bytes without `EEND` leave the registers 0 and the message open; `EEND` closes it. -/
theorem test_open_message_is_not_final :
    ((nextState? (run 3 (machine sample (encAt 0 0) (decAt 0 0) (movesOf 0 [.ebyte 1, .ebyte 2, .ebyte 3])))).bind
      (·.codec?)).map (fun m => (m.enc.acc, m.enc.cnt, m.encPos)) = some (0, 0, 3) := by decide
theorem test_closing_ends_the_message :
    ((nextState? (step (machine sample (encAt 0 0) (decAt 0 0) (movesOf 0 [.eend]) 3))).bind
      (·.codec?)).map (·.encPos) = some 0 := by decide
/-- Rule R130: whitespace opens a message too. -/
theorem test_whitespace_opens_a_message :
    ((nextState? (step (machine sample (encAt 0 0) (decAt 0 0) (movesOf 0 [.dchar 0x20])))).bind
      (·.codec?)).map (fun m => (m.dec.nbits, m.encPos, m.decPos)) = some (0, 0, 1) := by decide

/-! ### The reference functions -/

/-- V-E14: the values of "abc". -/
theorem test_groupValues : groupValues [0x61, 0x62, 0x63] = [3, 0, 2, 6, 1, 1, 4, 3] := by decide
/-- V-D8: the pad bit 1 of 愛楽し is ignored. -/
theorem test_decodeStream_ignores_pad : decodeStream sample [0x611B, 0x697D, 0x3057] = .ok [0x42] := by decide
/-- V-D14: an invalid character wins over the truncation. -/
theorem test_decodeStream_priority : decodeStream sample [0x611B, 0x697D, 0x41] = .invalidSymbol 0x41 := by decide

/-! ### Witnesses: states and operands that meet the hypotheses of the statements -/

theorem witness_CommandMapFollowsTheTable :
    (0x0FF#9 &&& 0x100 = 0x000) ∧ (0x100#9 &&& 0x100 = 0x100) ∧
    (0x1FFFFF#22 &&& 0x200000 = 0x000000) ∧ (0x200000#22 &&& 0x200000 = 0x200000) := by decide
theorem witness_DecodeInvertsEncode : (Instr.ebyte 0xFF).unit = .enc ∧ (Instr.dchar 0x1FFFFF).unit = .dec := by decide
theorem witness_EncodeInvertsDecodeOnCanonicalBeats :
    (0x100#9).getLsbD 8 = true ∧ (0x100#9).setWidth 8 = 0#8 ∧
    (0x200000#22).getLsbD 21 = true ∧ (0x200000#22).setWidth 21 = 0#21 := by decide
theorem witness_StepRunsTheOfferedBeat :
    (machine sample (encAt 0 0) (decAt 0 0) [⟨0, .beat (.ei 0x1FF)⟩]).host = ⟨0, .beat (.ei 0x1FF)⟩ :: [] := by decide
theorem witness_StepRunsTheFetchedTableWord : decodeTableWord 24 0x200000 = some .dend := by decide

theorem witness_SymbolMappingIsABijection : valueFor sample.rom 0x42 = some 7 := by decide
theorem witness_NonScalarCodesAreInvalidSymbols :
    (0xD800 ≤ (0xD800#21).toNat ∧ (0xD800#21).toNat ≤ 0xDFFF) ∧ (0xD800 ≤ (0xDFFF#21).toNat ∧ (0xDFFF#21).toNat ≤ 0xDFFF) ∧
    0x110000 ≤ (0x110000#21).toNat ∧ 0x110000 ≤ (0x1FFFFF#21).toNat := by decide
theorem witness_ClassifyHasThreeExclusiveCases : valueFor sample.rom 0x697D = some 0 := by decide

theorem witness_EbyteFollowsThePhaseTable :
    (machine sample (encAt 0 0) (decAt 0 0)).codec?.map (·.enc.cnt) = some 0 ∧
    (machine sample (encAt 1 1) (decAt 0 0)).codec?.map (·.enc.cnt) = some 1 ∧
    (machine sample (encAt 3 2) (decAt 0 0)).codec?.map (·.enc.cnt) = some 2 := by decide
theorem witness_EendPadsClosesAndIdles :
    (machine sample (encAt 0 0) (decAt 0 0)).codec? = some ⟨encAt 0 0, decAt 0 0, 0, 0⟩ ∧
    (machine sample (encAt 1 1) (decAt 0 0)).codec? = some ⟨encAt 1 1, decAt 0 0, 0, 0⟩ ∧
    (machine sample (encAt 3 2) (decAt 0 0)).codec? = some ⟨encAt 3 2, decAt 0 0, 0, 0⟩ := by decide
theorem witness_EncoderRefusesCounterThree :
    (machine sample (encAt 0 3) (decAt 0 0)).codec? = some ⟨encAt 0 3, decAt 0 0, 0, 0⟩ ∧ (encAt 0 3).cnt = 3 := by decide
theorem witness_EncoderCommandsChangeOnlyTheirUnit :
    (Instr.ebyte 0).unit = .enc ∧ ∃ t, exec (.ebyte 0) (machine sample (encAt 1 1) (decAt 0 0)) = .next t :=
  ⟨rfl, _, rfl⟩
theorem witness_EncoderCommandsReadOnlyTheirUnit :
    Instr.eend.unit = .enc ∧
    (machine sample (encAt 3 2) (decAt 0 0)).cfg = (machine sample (encAt 3 2) decBad).cfg ∧
    (machine sample (encAt 3 2) (decAt 0 0)).codec? = some ⟨encAt 3 2, decAt 0 0, 0, 0⟩ ∧
    (machine sample (encAt 3 2) decBad).codec? = some ⟨encAt 3 2, decBad, 0, 0⟩ := by decide
theorem witness_EncoderPhaseAfterBytes :
    (machine sample (encAt 0 0) decBad (movesOf 0 ([0xFF, 0x00].map .ebyte))).insts[0]? = some ⟨encAt 0 0, decBad, 0, 0⟩ ∧
    (encAt 0 0).isIdle ∧
    (machine sample (encAt 0 0) decBad (movesOf 0 ([0xFF, 0x00].map .ebyte))).host =
      movesOf 0 ([0xFF, 0x00].map .ebyte) ++ [] := ⟨rfl, ⟨rfl, rfl⟩, by decide⟩
/-- Also for `EncoderLengthLaw`, and with the empty message. -/
theorem witness_EncoderMessageEqualsReference :
    (machine sample (encAt 0 0) decBad (movesOf 0 (encodeMessage []))).insts[0]? = some ⟨encAt 0 0, decBad, 0, 0⟩ ∧
    (encAt 0 0).isIdle ∧
    (machine sample (encAt 0 0) decBad (movesOf 0 (encodeMessage []))).host = movesOf 0 (encodeMessage []) ++ [] :=
  ⟨rfl, ⟨rfl, rfl⟩, by decide⟩
theorem witness_LastSymbolIsPaddedWithZeros :
    ([0xFF] : List Byte).length % 3 = 1 ∧ ([0xFF, 0xFF] : List Byte).length % 3 = 2 := by decide
theorem witness_EncodeIsInjective : encodeStream sample.rom [] = encodeStream sample.rom [] := rfl

/-- The units of the sample machine meet their invariants. -/
theorem sample_inv (e : EncUnit) (d : DecUnit) (host : List Move) (i j : Nat) (h : Codec.Inv sample ⟨e, d, i, j⟩) :
    (machine sample e d host i j).Inv := by
  refine ⟨rfl, Nat.one_pos, fun m hm => ?_⟩
  have : m = ⟨e, d, i, j⟩ := by simpa [machine] using hm
  subst this
  exact h
theorem decAt_inv : (decAt 0x7F 7 [0x41]).Inv sample :=
  ⟨by decide, fun _ => rfl, fun h => by simp [decAt] at h, fun cap h => by simp [sample, Config.thisSystemRaw] at h⟩
/-- One byte and five symbols into their messages. -/
theorem codec_inv : Codec.Inv sample ⟨encAt 3 2, decAt 0x7F 7 [0x41], 1, 5⟩ :=
  ⟨⟨by decide, by decide⟩, decAt_inv, by decide, fun h => by cases h⟩
theorem witness_EncoderIsTotal :
    (machine sample (encAt 3 2) (decAt 0x7F 7 [0x41]) ([0x1FF#9, 0x000#9].map fun w => ⟨0, .beat (.ei w)⟩) 1 5).Inv ∧
    0 < sample.nInst :=
  ⟨sample_inv _ _ _ _ _ codec_inv, by decide⟩

theorem witness_DcharWhitespaceChangesNothing :
    (machine sample (encAt 0 0) (decAt 0x7F 7)).codec? = some ⟨encAt 0 0, decAt 0x7F 7, 0, 0⟩ ∧
    (decAt 0x7F 7).bad = false ∧ isWs sample.ws 0x0020 = true := by decide
/-- Also for `DendReportsInvalidSymbol`. -/
theorem witness_DcharDrainedChangesNothing :
    (machine sample (encAt 0 0) decBad).codec? = some ⟨encAt 0 0, decBad, 0, 0⟩ ∧ decBad.bad = true := by decide
/-- A symbol with the value 7, in each of the eight phases; the buffer of one byte has room. -/
theorem witness_DcharSymbolFollowsThePhaseTable :
    (decAt 0x7F 7).bad = false ∧ isWs oneByte.ws 0x42 = false ∧ valueFor oneByte.rom 0x42 = some 7 ∧
    ([0, 1, 2, 3, 4, 5, 6, 7] : List (BitVec 3)).all (fun n =>
      (machine oneByte (encAt 0 0) (decAt 0x7F n)).codec? == some ⟨encAt 0 0, decAt 0x7F n, 0, 0⟩) = true ∧
    (decAt 0x7F 7).obuf.length < 1 := by decide
theorem witness_DcharInvalidLatchesTheCharacter :
    (machine sample (encAt 0 0) (decAt 1 1)).codec? = some ⟨encAt 0 0, decAt 1 1, 0, 0⟩ ∧ (decAt 1 1).bad = false ∧
    isWs sample.ws 0x1FFFFF = false ∧ valueFor sample.rom 0x1FFFFF = none := by decide
/-- A full buffer, where `DCHAR` is refused, and an unbounded one. -/
theorem witness_DcharRefusedExactlyWhenBufferFull :
    (machine oneByte (encAt 0 0) (decAt 0 5 [0x41])).codec? = some ⟨encAt 0 0, decAt 0 5 [0x41], 0, 0⟩ ∧
    oneByte.obufCap = some (decAt 0 5 [0x41]).obuf.length ∧
    refusal? (exec (.dchar 0x697D) (machine oneByte (encAt 0 0) (decAt 0 5 [0x41]))) = some .obufFull ∧
    sample.obufCap = none := by decide
theorem witness_DendEndRule :
    (machine sample (encAt 0 0) (decAt 0 3)).codec? = some ⟨encAt 0 0, decAt 0 3, 0, 0⟩ ∧ 3 ≤ (decAt 0 3).nbits.toNat ∧
    (machine sample (encAt 0 0) (decAt 3 2)).codec? = some ⟨encAt 0 0, decAt 3 2, 0, 0⟩ ∧ (decAt 3 2).nbits.toNat < 3 ∧
    (decAt 0 3).bad = false ∧ (decAt 3 2).bad = false := by decide
theorem witness_DendReportsInvalidUtf8 :
    (machine sample (encAt 0 0) (decAt 0 2 [0xFF])).codec? = some ⟨encAt 0 0, decAt 0 2 [0xFF], 0, 0⟩ ∧
    (decAt 0 2 [0xFF]).bad = false ∧ (decAt 0 2 [0xFF]).nbits.toNat < 3 ∧ sample.utf8Check = true ∧
    utf8Ok [0xFF] = false := by decide
/-- With the check on and bytes that pass it, and with the check off and bytes that would not. -/
theorem witness_DendDeliversTheBytes :
    (machine sample (encAt 0 0) (decAt 3 2 [0x41])).codec? = some ⟨encAt 0 0, decAt 3 2 [0x41], 0, 0⟩ ∧ utf8Ok [0x41] = true ∧
    (machine oneByte (encAt 0 0) (decAt 3 2 [0xFF])).codec? = some ⟨encAt 0 0, decAt 3 2 [0xFF], 0, 0⟩ ∧
    oneByte.utf8Check = false := by decide
/-- `ErrorsEmitOneBeatOnly` has the witnesses of the four statements on `DEND`. -/
theorem witness_DecoderCommandsChangeOnlyTheirUnit :
    Instr.dend.unit = .dec ∧ ∃ t, exec .dend (machine sample (encAt 0 0) decBad) = .next t := ⟨rfl, _, rfl⟩
theorem witness_DecoderCommandsReadOnlyTheirUnit :
    Instr.dend.unit = .dec ∧
    (machine sample (encAt 0 0) decBad).cfg = (machine sample (encAt 3 2) decBad).cfg ∧
    (machine sample (encAt 0 0) decBad).codec? = some ⟨encAt 0 0, decBad, 0, 0⟩ ∧
    (machine sample (encAt 3 2) decBad).codec? = some ⟨encAt 3 2, decBad, 0, 0⟩ := by decide

/-- The idle decoder is idle. -/
theorem decAt_idle : (decAt 0 0).isIdle := ⟨rfl, rfl, rfl, rfl, rfl⟩
/-- The idle instance meets its invariant. -/
theorem idle_codec_inv : Codec.Inv sample ⟨encAt 0 0, decAt 0 0, 0, 0⟩ :=
  ⟨⟨by decide, by decide⟩,
   ⟨by decide, fun _ => rfl, fun h => by simp [decAt] at h, fun cap h => by simp [sample, Config.thisSystemRaw] at h⟩,
   by decide, fun _ => decAt_idle⟩
/-- Three symbols fill the buffer of one byte exactly. -/
theorem three_symbols_fit : fitsBuffer oneByte [0x611B, 0x20, 0x697D, 0x611B] := by
  intro cap h
  have : cap = 1 := by simpa [oneByte, eq_comm] using h
  subst this
  decide
/-- Also for `LegalLengths` (the selected instance is 0). -/
theorem witness_DecoderPhaseAfterSymbols :
    (machine oneByte (encAt 0 0) (decAt 0 0)
      (movesOf 0 ([0x611B, 0x20, 0x697D, 0x611B].map .dchar))).insts[0]? = some ⟨encAt 0 0, decAt 0 0, 0, 0⟩ ∧
    (decAt 0 0).isIdle ∧ fitsBuffer oneByte [0x611B, 0x20, 0x697D, 0x611B] ∧
    ∀ c ∈ [0x611B#21, 0x20#21, 0x697D#21, 0x611B#21], classify oneByte.rom oneByte.ws c ≠ .invalid c := by
  refine ⟨rfl, decAt_idle, three_symbols_fit, fun c hc => ?_⟩
  simp only [List.mem_cons, List.not_mem_nil, or_false] at hc
  rcases hc with rfl | rfl | rfl | rfl <;> decide
theorem witness_DecoderMessageEqualsReference :
    (machine oneByte (encAt 0 0) (decAt 0 0)
      (movesOf 0 (decodeMessage [0x611B, 0x20, 0x697D, 0x611B]))).insts[0]? = some ⟨encAt 0 0, decAt 0 0, 0, 0⟩ ∧
    (decAt 0 0).isIdle ∧ fitsBuffer oneByte [0x611B, 0x20, 0x697D, 0x611B] := ⟨rfl, decAt_idle, three_symbols_fit⟩
/-- Six symbols make two bytes. -/
theorem witness_OverlongMessageIsRefused :
    (machine oneByte (encAt 0 0) (decAt 0 0)
      (movesOf 0 (decodeMessage (List.replicate 6 0x697D)))).insts[0]? = some ⟨encAt 0 0, decAt 0 0, 0, 0⟩ ∧
    (decAt 0 0).isIdle ∧ ¬ fitsBuffer oneByte (List.replicate 6 0x697D) := by
  refine ⟨rfl, decAt_idle, fun h => ?_⟩
  exact absurd (h 1 rfl) (by decide)
theorem witness_RoundTrip :
    (machine oneByte (encAt 0 0) (decAt 0 0)
      (movesOf 0 (decodeMessage (encodeStream oneByte.rom [0xFF])))).insts[0]? = some ⟨encAt 0 0, decAt 0 0, 0, 0⟩ ∧
    (decAt 0 0).isIdle ∧ oneByte.obufCap = some ([0xFF] : List Byte).length := ⟨rfl, decAt_idle, rfl⟩
theorem witness_DecodeThenEncodeOnCanonicalStreams : StrictlyCanonical sample [0x611B, 0x697D, 0x611B] := by
  refine ⟨fun c hc => ?_, .inr (.inl rfl), fun i hi => ?_⟩
  · simp only [List.mem_cons, List.not_mem_nil, or_false] at hc
    rcases hc with rfl | rfl | rfl
    · exact ⟨2, by decide⟩
    · exact ⟨0, by decide⟩
    · exact ⟨2, by decide⟩
  · have hv : valueBits sample.rom [0x611B, 0x697D, 0x611B] =
        [false, true, false, false, false, false, false, true, false] := by decide
    rw [hv]
    have h8 : 8 ≤ i := hi
    match i, h8 with
    | 8, _ => rfl
    | n + 9, _ => simp
theorem witness_WhitespaceIsInsignificant :
    stripWs sample.ws [0x20, 0x611B] = stripWs sample.ws [0x611B, 0x3000, 0x20] := by decide
/-- U+3002 stands as `SYM[6]` and, with the check off, as `SYM[3]` and `SYM[7]`. -/
theorem witness_ThreeFullStopsFailWithTheCheck :
    sample.utf8Check = true ∧ oneByte.utf8Check = false ∧ oneByte.sym6 = 0x3002 ∧
    ({ oneByte.toRawParams with sym3 := 0x3002, sym6 := 0x43 } : RawParams).Ok ∧
    ({ oneByte.toRawParams with sym6 := 0x44, sym7 := 0x3002 } : RawParams).Ok := by decide

theorem witness_StepKeepsInvariant :
    (machine sample (encAt 3 2) (decAt 0x7F 7 [0x41]) [⟨0, .beat (.di 0x00697D)⟩] 1 5).Inv ∧
    ∃ t, step (machine sample (encAt 3 2) (decAt 0x7F 7 [0x41]) [⟨0, .beat (.di 0x00697D)⟩] 1 5) = .next t :=
  ⟨sample_inv _ _ _ _ _ codec_inv, _, rfl⟩
theorem witness_StepKeepsOutputsLegal :
    (machine sample (encAt 3 2) (decAt 0x7F 7 [0x41]) [⟨0, .beat (.ei 0x100)⟩]).OutputsLegal ∧
    ∃ t, step (machine sample (encAt 3 2) (decAt 0x7F 7 [0x41]) [⟨0, .beat (.ei 0x100)⟩]) = .next t := by
  refine ⟨fun m hm => ?_, _, rfl⟩
  have : m = ⟨encAt 3 2, decAt 0x7F 7 [0x41], 0, 0⟩ := by simpa [machine] using hm
  subst this
  exact ⟨by simp [encAt], by simp [decAt]⟩
theorem witness_StepIsTotalOrRefusedByCapacity :
    (machine sample (encAt 3 2) (decAt 0x7F 7 [0x41]) [⟨0, .read .dec⟩] 1 5).Inv ∧ 0 < sample.nInst :=
  ⟨sample_inv _ _ _ _ _ codec_inv, by decide⟩
theorem witness_StepChangesOnlyTheAddressedUnit :
    (machine sample (encAt 0 0) decBad [⟨0, .reset .dec⟩]).host = ⟨0, .reset .dec⟩ :: [] ∧
    ∃ t, step (machine sample (encAt 0 0) decBad [⟨0, .reset .dec⟩]) = .next t := ⟨rfl, _, rfl⟩
theorem witness_IndependentMovesCommute :
    (HostAct.beat (.ei 0x041)).unit ≠ (HostAct.beat (.di 0x00611B)).unit ∧
    ∃ t, run 2 (machine sample (encAt 0 0) (decAt 0 0) [⟨0, .beat (.ei 0x041)⟩, ⟨0, .beat (.di 0x00611B)⟩]) = .next t :=
  ⟨by decide, _, rfl⟩
/-- Also for `ReadingAndWaitingChangeNothing`. -/
theorem witness_ResetInputSetsOneUnitIdle :
    (machine sample (encAt 3 2) decBad).insts[0]? = some ⟨encAt 3 2, decBad, 0, 0⟩ ∧
    (machine sample (encAt 3 2) decBad).host = [] := by decide
theorem witness_BootRefusesExactlyBadParameters :
    (∃ t, State.boot sample.toRawParams = .next t) ∧
    refusal? (State.boot (Config.thisSystemRaw 0x20 0x3002 0x42)) = some .badParameters ∧
    refusal? (State.boot (Config.thisSystemRaw 0x3002 0x43 0x42)) = some .badParameters := ⟨⟨_, rfl⟩, by decide, by decide⟩
theorem witness_MissingInstanceFaults :
    (machine sample (encAt 0 0) (decAt 0 0) [⟨1, .beat (.ei 0x041)⟩]).insts[1]? = none ∧
    fault? (step (machine sample (encAt 0 0) (decAt 0 0) [⟨1, .beat (.ei 0x041)⟩])) = some .noSuchInstance := by decide
theorem witness_MessagesComeOutInOrder :
    (machine oneByte (encAt 0 0) (decAt 0 0)).insts[0]? = some ⟨encAt 0 0, decAt 0 0, 0, 0⟩ ∧ (encAt 0 0).isIdle ∧
    (decAt 0 0).isIdle ∧ Codec.noMessageOpen ⟨encAt 0 0, decAt 0 0, 0, 0⟩ ∧
    ∀ cs ∈ [[0x611B, 0x20, 0x697D, 0x611B], [0x611B#21, 0x20, 0x697D, 0x611B]], fitsBuffer oneByte cs :=
  ⟨rfl, ⟨rfl, rfl⟩, decAt_idle, ⟨rfl, rfl⟩, fun cs hc => by
    simp only [List.mem_cons, List.not_mem_nil, or_false] at hc
    rcases hc with rfl | rfl <;> exact three_symbols_fit⟩
theorem witness_ClosedMessagesEndTheRun :
    (machine sample (encAt 0 0) (decAt 0 0) (movesOf 0 (encodeMessage [0x41]) ++ movesOf 0 (decodeMessage []))).Inv ∧
    sample.obufCap = none ∧ Codec.noMessageOpen ⟨encAt 0 0, decAt 0 0, 0, 0⟩ ∧
    messageWellFormed .enc (encodeMessage [0x41]) = true ∧ messageWellFormed .dec (decodeMessage []) = true :=
  ⟨sample_inv _ _ _ _ _ idle_codec_inv, rfl, ⟨rfl, rfl⟩, by decide, by decide⟩
theorem witness_UnclosedMessageIsNotFinal :
    (machine oneByte (encAt 0 0) (decAt 0 0) (movesOf 0 ([1, 2, 3].map .ebyte))).insts[0]? = some ⟨encAt 0 0, decAt 0 0, 0, 0⟩ ∧
    (machine oneByte (encAt 0 0) (decAt 0 0) (movesOf 0 ([0x611B, 0x20, 0x697D, 0x611B].map .dchar))).insts[0]? =
      some ⟨encAt 0 0, decAt 0 0, 0, 0⟩ ∧
    (encAt 0 0).cnt ≠ 3 ∧ (decAt 0 0).isIdle ∧ fitsBuffer oneByte [0x611B, 0x20, 0x697D, 0x611B] :=
  ⟨rfl, rfl, by decide, decAt_idle, three_symbols_fit⟩
/-- The same machine is over, and is not while a message is open. -/
theorem witness_RunIsOverExactlyWhenNoMessageIsOpen :
    (machine sample (encAt 0 0) (decAt 0 0)).Inv ∧ (machine sample (encAt 0 0) (decAt 0 0)).runOver ∧
    (machine sample (encAt 0 0) (decAt 0 0) [] 3).Inv ∧ ¬ (machine sample (encAt 0 0) (decAt 0 0) [] 3).runOver := by
  refine ⟨sample_inv _ _ _ _ _ idle_codec_inv, ⟨rfl, fun m hm => ?_⟩,
    sample_inv _ _ _ _ _ ⟨⟨by decide, by decide⟩, idle_codec_inv.2.1, by decide, fun _ => decAt_idle⟩, fun h => ?_⟩
  · have : m = ⟨encAt 0 0, decAt 0 0, 0, 0⟩ := by simpa [machine] using hm
    subst this
    exact ⟨⟨rfl, rfl⟩, ⟨rfl, rfl⟩, decAt_idle⟩
  · exact absurd (h.2 _ (List.mem_singleton.mpr rfl)).1.1 (by decide)

end Sys2Proof.Tests
end

section
/-!
PROOFS. The symbol mapping (spec file 40_symbol_map.md): every ROM entry is a symbol and no symbol is whitespace; the three
answers of `classify`, one condition for each.
-/

namespace Sys2Proof.Machine

/-! ### The ROM and its inverse look-up -/

theorem symbolFor_mem_rom (rom : Rom) (x : Nat) : symbolFor rom x ∈ rom.toList :=
  Vector.mem_toList_iff.mpr (Vector.getElem_mem _)

/-- A character with a value is the ROM's entry for that value. -/
theorem symbolFor_of_valueFor {rom : Rom} {c : Chr} {v : Val3} (h : valueFor rom c = some v) :
    symbolFor rom v.toNat = c := by
  simpa using List.find?_some (p := fun v : Val3 => symbolFor rom v.toNat == c) h

/-- Rule R7 (b) for one entry of the ROM. -/
theorem isWs_eq_false_of_mem_rom (p : Params) {c : Chr} (h : c ∈ p.rom.toList) : isWs p.ws c = false := by
  obtain ⟨⟨-, symbolsNotWs, -⟩, -⟩ := p.ok
  simpa using List.all_eq_true.mp symbolsNotWs c h

/-- `WS` and `SYM` are disjoint: a character with a value is in the ROM. -/
theorem isWs_eq_false_of_valueFor (p : Params) {c : Chr} {v : Val3} (h : valueFor p.rom c = some v) :
    isWs p.ws c = false :=
  isWs_eq_false_of_mem_rom p (symbolFor_of_valueFor h ▸ symbolFor_mem_rom p.rom v.toNat)

/-! ### The three answers of `classify` (rule R68) -/

section
variable (rom : Rom) (ws : List Chr) (c : Chr)

/-- Everything `classify` can answer, with the two tests that lead there. -/
theorem classify_cases :
    (isWs ws c = true ∧ classify rom ws c = .whitespace) ∨
    (∃ v, isWs ws c = false ∧ valueFor rom c = some v ∧ classify rom ws c = .symbol v) ∨
    (isWs ws c = false ∧ valueFor rom c = none ∧ classify rom ws c = .invalid c) := by
  cases hw : isWs ws c with
  | true => exact .inl ⟨rfl, by simp [classify, hw]⟩
  | false =>
    cases hv : valueFor rom c with
    | some v => exact .inr (.inl ⟨v, rfl, rfl, by simp [classify, hw, hv]⟩)
    | none => exact .inr (.inr ⟨rfl, rfl, by simp [classify, hw, hv]⟩)

theorem classify_eq_whitespace_iff : classify rom ws c = .whitespace ↔ isWs ws c = true := by
  obtain ⟨hw, hc⟩ | ⟨v, hw, -, hc⟩ | ⟨hw, -, hc⟩ := classify_cases rom ws c <;> simp [hw, hc]

theorem classify_eq_symbol_iff (v : Val3) :
    classify rom ws c = .symbol v ↔ isWs ws c = false ∧ valueFor rom c = some v := by
  obtain ⟨hw, hc⟩ | ⟨u, hw, hv, hc⟩ | ⟨hw, hv, hc⟩ := classify_cases rom ws c
  · simp [hw, hc]
  · simp [hw, hv, hc]
  · simp [hv, hc]

theorem classify_eq_invalid_iff (c' : Chr) :
    classify rom ws c = .invalid c' ↔ c' = c ∧ isWs ws c = false ∧ valueFor rom c = none := by
  obtain ⟨hw, hc⟩ | ⟨u, hw, hv, hc⟩ | ⟨hw, hv, hc⟩ := classify_cases rom ws c
  · simp [hw, hc]
  · simp [hv, hc]
  · simp [hw, hv, hc, eq_comm]

end

/-- Settles O10: each answer has its own condition (the case split of `classify`), and rule R7 (b) keeps every character with
a value out of `WS`. -/
theorem classifyHasThreeExclusiveCases : Obligations.ClassifyHasThreeExclusiveCases := fun p c =>
  ⟨classify_eq_whitespace_iff p.rom p.ws c, classify_eq_symbol_iff p.rom p.ws c, classify_eq_invalid_iff p.rom p.ws c,
    fun _ => isWs_eq_false_of_valueFor p⟩

end Sys2Proof.Machine
end

section
/-!
PROOFS. The encoder unit `ENC` (spec file 41_encoder.md): `EBYTE` in closed form and the phase tables of `EBYTE` and `EEND`.
-/

namespace Sys2Proof.Machine

/-! ### Bit slices as parts of a bit vector (rule R8) -/

/-- Residual bits and new bits stand side by side in one word. -/
theorem joinResidual_eq_toNat {w n : Nat} (acc : BitVec w) (k : Nat) (v : BitVec n) :
    joinResidual acc k v = (acc.extractLsb' 0 k ++ v).toNat := by
  simp [joinResidual, lowBits, BitVec.toNat_append, Nat.shiftLeft_add_eq_or_of_lt v.isLt, ← Nat.shiftLeft_eq]

theorem ofNat_slice {w : Nat} (t : BitVec w) {hi lo k : Nat} (h : hi + 1 - lo = k) :
    BitVec.ofNat k (slice t.toNat hi lo) = t.extractLsb' lo k := by
  simp [slice, h, BitVec.toNat_eq]

theorem ofNat_toNat_mod_two_pow {w : Nat} (t : BitVec w) (r k : Nat) :
    BitVec.ofNat k (t.toNat % 2 ^ r) = (t.extractLsb' 0 r).setWidth k := by
  simp [BitVec.toNat_eq]

/-! ### `EBYTE` on the unit (rule R71) -/

/-- `EBYTE` in closed form, `k` being the number of residual bits: the groups are cut from the word of the residual bits and the
byte, the earliest from the top; what is left of it stays. -/
theorem EncUnit.takeByte_eq (rom : Rom) (d : Byte) (u : EncUnit) {k : Nat} (h : u.cnt.toNat = k) :
    u.takeByte rom d =
      { acc := ((u.acc.extractLsb' 0 k ++ d).extractLsb' 0 ((k + 8) % 3)).setWidth 2
        cnt := BitVec.ofNat 2 ((k + 8) % 3)
        out := u.out ++ (List.range ((k + 8) / 3)).map fun g =>
          eoSymbol (symbolFor rom ((u.acc.extractLsb' 0 k ++ d).extractLsb' (k + 8 - 3 * g - 3) 3).toNat) } := by
  subst h
  simp only [EncUnit.takeByte, sliceGroups_eq, joinResidual_eq_toNat, ofNat_toNat_mod_two_pow, List.map_map]
  congr 2
  refine List.map_congr_left fun g hg => ?_
  have hg' := List.mem_range.mp hg
  rw [Function.comp_apply, ofNat_slice _ (by omega)]

theorem EncUnit.takeByte_of_cnt_zero (rom : Rom) (d : Byte) {u : EncUnit} (h : u.cnt = 0) :
    u.takeByte rom d =
      { acc := d.extractLsb' 0 2
        cnt := 2
        out := u.out ++ [eoSymbol (symbolFor rom (d.extractLsb' 5 3).toNat),
          eoSymbol (symbolFor rom (d.extractLsb' 2 3).toNat)] } := by
  rw [EncUnit.takeByte_eq rom d u (k := 0) (by rw [h]; rfl)]
  simp [List.range_succ, ↓BitVec.extractLsb'_append_eq_ite]

theorem EncUnit.takeByte_of_cnt_two (rom : Rom) (d : Byte) {u : EncUnit} (h : u.cnt = 2) :
    u.takeByte rom d =
      { acc := 0#1 ++ d.extractLsb' 0 1
        cnt := 1
        out := u.out ++ [eoSymbol (symbolFor rom (u.acc ++ d.extractLsb' 7 1).toNat),
          eoSymbol (symbolFor rom (d.extractLsb' 4 3).toNat), eoSymbol (symbolFor rom (d.extractLsb' 1 3).toNat)] } := by
  rw [EncUnit.takeByte_eq rom d u (k := 2) (by rw [h]; rfl)]
  have pad : (d.extractLsb' 0 1).setWidth 2 = 0#1 ++ d.extractLsb' 0 1 := BitVec.setWidth_eq_append (by decide)
  simp [List.range_succ, ↓BitVec.extractLsb'_append_eq_ite, pad]

theorem EncUnit.takeByte_of_cnt_one (rom : Rom) (d : Byte) {u : EncUnit} (h : u.cnt = 1) :
    u.takeByte rom d =
      { acc := 0
        cnt := 0
        out := u.out ++ [eoSymbol (symbolFor rom (u.acc.extractLsb' 0 1 ++ d.extractLsb' 6 2).toNat),
          eoSymbol (symbolFor rom (d.extractLsb' 3 3).toNat), eoSymbol (symbolFor rom (d.extractLsb' 0 3).toNat)] } := by
  rw [EncUnit.takeByte_eq rom d u (k := 1) (by rw [h]; rfl)]
  simp [List.range_succ, ↓BitVec.extractLsb'_append_eq_ite]

/-- Settles O13: the closed form of the loop, read off in each of the three phases. -/
theorem ebyteFollowsThePhaseTable : Obligations.EbyteFollowsThePhaseTable := by
  refine fun s m d hm => ⟨fun h => ?_, fun h => ?_, fun h => ?_⟩
  · rw [exec_ebyte d hm (by rw [h]; decide), EncUnit.takeByte_of_cnt_zero _ d h]; rfl
  · rw [exec_ebyte d hm (by rw [h]; decide), EncUnit.takeByte_of_cnt_two _ d h]; rfl
  · rw [exec_ebyte d hm (by rw [h]; decide), EncUnit.takeByte_of_cnt_one _ d h]; rfl

/-! ### `EEND` on the unit (rule R73) -/

theorem EncUnit.finish_of_cnt_zero (rom : Rom) {u : EncUnit} (h : u.cnt = 0) :
    u.finish rom = EncUnit.idle (u.out ++ [eoEnd]) := by
  simp [EncUnit.finish, EncUnit.toIdle_eq, h]

theorem EncUnit.finish_of_cnt_ne_zero (rom : Rom) {u : EncUnit} (h : u.cnt ≠ 0) :
    u.finish rom = EncUnit.idle (u.out ++ [eoSymbol (symbolFor rom u.padGroup.toNat), eoEnd]) := by
  have hpos : 0 < u.cnt.toNat := Nat.pos_of_ne_zero fun h0 => h (BitVec.eq_of_toNat_eq h0)
  simp [EncUnit.finish, EncUnit.toIdle_eq, hpos]

/-- The padded group of rule R73: the `k` residual bits, then zeros. -/
theorem EncUnit.padGroup_eq {u : EncUnit} {k : Nat} (h : u.cnt.toNat = k) :
    u.padGroup = (u.acc.extractLsb' 0 k ++ 0#(3 - k)).setWidth 3 := by
  have joined := joinResidual_eq_toNat u.acc k 0#(3 - k)
  simp only [joinResidual, BitVec.toNat_zero, Nat.add_zero, ← Nat.shiftLeft_eq] at joined
  rw [EncUnit.padGroup, h, joined, BitVec.ofNat_toNat]

theorem EncUnit.padGroup_of_cnt_one {u : EncUnit} (h : u.cnt = 1) : u.padGroup = u.acc.extractLsb' 0 1 ++ 0#2 := by
  rw [EncUnit.padGroup_eq (k := 1) (by rw [h]; rfl)]
  exact BitVec.setWidth_eq _

theorem EncUnit.padGroup_of_cnt_two {u : EncUnit} (h : u.cnt = 2) : u.padGroup = u.acc ++ 0#1 := by
  rw [EncUnit.padGroup_eq (k := 2) (by rw [h]; rfl), BitVec.extractLsb'_eq_self]
  exact BitVec.setWidth_eq _

/-- Settles O14: with no residual bits only the end beat is emitted, otherwise the padded group goes before it. -/
theorem eendPadsClosesAndIdles : Obligations.EendPadsClosesAndIdles := by
  refine fun s m hm => ⟨fun h => ?_, fun h => ?_, fun h => ?_⟩
  · rw [exec_eend hm (by rw [h]; decide), EncUnit.finish_of_cnt_zero _ h]; rfl
  · rw [exec_eend hm (by rw [h]; decide), EncUnit.finish_of_cnt_ne_zero _ (by rw [h]; decide),
      EncUnit.padGroup_of_cnt_one h]; rfl
  · rw [exec_eend hm (by rw [h]; decide), EncUnit.finish_of_cnt_ne_zero _ (by rw [h]; decide),
      EncUnit.padGroup_of_cnt_two h]; rfl

end Sys2Proof.Machine
end

section
/-!
PROOFS. A message of the encoder as the host runs it: the beats decode to their commands, the steps that consume them, the run
of the whole message, and the length law (rule R75).
-/

namespace Sys2Proof.Machine

/-! ### The fields of a beat built from its fields -/

theorem getLsbD_ofBool_append {w : Nat} (b : Bool) (x : BitVec w) : (BitVec.ofBool b ++ x).getLsbD w = b := by
  rw [BitVec.getLsbD_append, if_neg (Nat.lt_irrefl w), Nat.sub_self, BitVec.getLsbD_ofBool]
  simp

theorem extractLsb'_ofBool_append {w : Nat} (b : Bool) (x : BitVec w) :
    (BitVec.ofBool b ++ x).extractLsb' 0 w = x := by
  rw [BitVec.extractLsb'_append_eq_of_add_le (by omega), BitVec.extractLsb'_eq_self]

@[simp] theorem eiEnd_eiWord (b : Bool) (d : Byte) : eiEnd (eiWord b d) = b := getLsbD_ofBool_append b d
@[simp] theorem eiData_eiWord (b : Bool) (d : Byte) : eiData (eiWord b d) = d := extractLsb'_ofBool_append b d
@[simp] theorem diEnd_diWord (b : Bool) (c : Chr) : diEnd (diWord b c) = b := getLsbD_ofBool_append b c
@[simp] theorem diCh_diWord (b : Bool) (c : Chr) : diCh (diWord b c) = c := extractLsb'_ofBool_append b c

/-- A symbol beat has `end = 0` (rule R48). -/
theorem eoSymbol_end (c : Chr) : (eoSymbol c).getLsbD 21 = false := getLsbD_ofBool_append false c

/-- The canonical beat of a command decodes to it. -/
@[simp] theorem decodeBeat_encode (i : Instr) : decodeBeat (encode i) = i := by
  cases i <;> simp [encode, decodeBeat, decodeEI, decodeDI]

/-! ### Steps and runs over the beats of `ENC` -/

theorem coreRun_succ_of_step (M : Host.Core) {s t : M.State} (n : Nat) (h : M.step s = .next t) :
    M.run (n + 1) s = M.run n t := by
  simp [Host.Core.run, h]

/-- A run begins with one step. -/
theorem run_succ_of_step {s t : State} (n : Nat) (h : step s = .next t) : run (n + 1) s = run n t :=
  coreRun_succ_of_step core n h

/-- A step that consumes the beat of an encoder command which answers the encoder `e`: the rest of the machine. -/
theorem step_encode {s : State} {k : Nat} {m : Codec} {i : Instr} {rest : List Move} (e : EncUnit)
    (hm : s.insts[k]? = some m) (hhost : s.host = ⟨k, .beat (encode i)⟩ :: rest) (hu : i.unit = .enc)
    (hx : ∀ t n, t.codec? = some n → n.enc = m.enc → t.cfg = s.cfg → exec i t = .next (t.setEnc e)) :
    step s = .next { s with
      host := rest, sel := k,
      insts := s.insts.set k { m with enc := e, encPos := if i.closes then 0 else m.encPos + 1 } } := by
  have hunit : (encode i).unit = .enc := by rw [← decodeBeat_unit, decodeBeat_encode, hu]
  have hcodec : ({ s with host := rest, sel := k } : State).codec? = some m := hm
  have htrack : (State.track (.beat (encode i)) { s with host := rest, sel := k }).codec? =
      some (m.track (.beat (encode i))) := by rw [State.track_codec?, hcodec]; rfl
  rw [step_cons hhost]
  show exec (decodeBeat (encode i)) _ = _
  rw [decodeBeat_encode, hx _ _ htrack (Codec.track_enc _ m) rfl, State.setEnc_eq_set e htrack,
    State.track_eq_set _ hcodec]
  simp [Codec.track_beat, hunit]

theorem step_ebyte {s : State} {k : Nat} {m : Codec} {d : Byte} {rest : List Move}
    (hm : s.insts[k]? = some m) (hc : m.enc.cnt ≠ 3) (hhost : s.host = ⟨k, .beat (encode (.ebyte d))⟩ :: rest) :
    step s = .next { s with
      host := rest, sel := k,
      insts := s.insts.set k { m with enc := m.enc.takeByte s.cfg.rom d, encPos := m.encPos + 1 } } :=
  step_encode (m.enc.takeByte s.cfg.rom d) hm hhost rfl fun t n ht he hcfg => by
    rw [exec_ebyte d ht (he ▸ hc), he, hcfg]

theorem step_eend {s : State} {k : Nat} {m : Codec} {rest : List Move}
    (hm : s.insts[k]? = some m) (hc : m.enc.cnt ≠ 3) (hhost : s.host = ⟨k, .beat (encode .eend)⟩ :: rest) :
    step s = .next { s with
      host := rest, sel := k,
      insts := s.insts.set k { m with enc := m.enc.finish s.cfg.rom, encPos := 0 } } :=
  step_encode (m.enc.finish s.cfg.rom) hm hhost rfl fun t n ht he hcfg => by
    rw [exec_eend ht (he ▸ hc), he, hcfg]

/-- `EBYTE` for each of the bytes, on the unit. -/
def EncUnit.takeBytes (rom : Rom) (bytes : List Byte) (u : EncUnit) : EncUnit :=
  bytes.foldl (fun e d => e.takeByte rom d) u

@[simp] theorem EncUnit.takeBytes_nil (rom : Rom) (u : EncUnit) : u.takeBytes rom [] = u := rfl
@[simp] theorem EncUnit.takeBytes_cons (rom : Rom) (d : Byte) (bytes : List Byte) (u : EncUnit) :
    u.takeBytes rom (d :: bytes) = (u.takeByte rom d).takeBytes rom bytes := rfl

/-- `E.cnt` has a legal value (rule R15). -/
theorem cnt_ne_three_iff (c : BitVec 2) : c ≠ 3 ↔ c.toNat ≤ 2 := by
  revert c; decide

/-- The counter after a byte (rule R16), from any counter. -/
theorem EncUnit.takeByte_cnt (rom : Rom) (d : Byte) (u : EncUnit) :
    (u.takeByte rom d).cnt.toNat = (u.cnt.toNat + 8) % 3 := by
  rw [EncUnit.takeByte_eq rom d u rfl, BitVec.toNat_ofNat, Nat.mod_eq_of_lt (by omega)]

theorem EncUnit.takeByte_cnt_ne_three (rom : Rom) (d : Byte) (u : EncUnit) : (u.takeByte rom d).cnt ≠ 3 := by
  rw [cnt_ne_three_iff, EncUnit.takeByte_cnt]
  omega

/-- The run of one message: all its beats are consumed and the unit has taken its bytes and finished. -/
theorem run_encodeMessage {s : State} {k : Nat} {m : Codec} {rest : List Move} (bytes : List Byte)
    (hm : s.insts[k]? = some m) (hc : m.enc.cnt ≠ 3) (hhost : s.host = movesOf k (encodeMessage bytes) ++ rest) :
    run (bytes.length + 1) s = .next { s with
      host := rest, sel := k,
      insts := s.insts.set k
        { m with enc := (m.enc.takeBytes s.cfg.rom bytes).finish s.cfg.rom, encPos := 0 } } := by
  induction bytes generalizing s m with
  | nil => exact run_succ_of_step 0 (step_eend hm hc hhost)
  | cons d bytes ih =>
    obtain ⟨hlt, -⟩ := List.getElem?_eq_some_iff.mp hm
    rw [List.length_cons, run_succ_of_step _ (step_ebyte hm hc hhost),
      ih (List.getElem?_set_self hlt) (EncUnit.takeByte_cnt_ne_three _ d _) rfl]
    simp [List.set_set]

/-! ### The length law (rule R75) -/

/-- The counter after any bytes (rule R16), from a legal counter. -/
theorem EncUnit.takeBytes_cnt (rom : Rom) (bytes : List Byte) {u : EncUnit} (hc : u.cnt.toNat ≤ 2) :
    (u.takeBytes rom bytes).cnt.toNat = (u.cnt.toNat + 8 * bytes.length) % 3 := by
  induction bytes generalizing u with
  | nil =>
    rw [EncUnit.takeBytes_nil, List.length_nil]
    omega
  | cons d bytes ih =>
    have hcnt := EncUnit.takeByte_cnt rom d u
    rw [EncUnit.takeBytes_cons, ih (by omega), List.length_cons]
    omega

/-- The channel's content grows from `old` to `new` by `n` beats with `end = 0`. -/
def AppendsSymbols (old new : List EO) (n : Nat) : Prop :=
  ∃ beats, new = old ++ beats ∧ (∀ w ∈ beats, w.getLsbD 21 = false) ∧ beats.length = n

theorem AppendsSymbols.refl (out : List EO) : AppendsSymbols out out 0 :=
  ⟨[], by simp, by simp, rfl⟩

theorem AppendsSymbols.trans {a b c : List EO} {i j : Nat} :
    AppendsSymbols a b i → AppendsSymbols b c j → AppendsSymbols a c (i + j) := by
  rintro ⟨xs, rfl, hx, rfl⟩ ⟨ys, rfl, hy, rfl⟩
  exact ⟨xs ++ ys, List.append_assoc .., fun w hw => (List.mem_append.mp hw).elim (hx w) (hy w), List.length_append⟩

theorem EncUnit.takeByte_appends (rom : Rom) (d : Byte) (u : EncUnit) :
    AppendsSymbols u.out (u.takeByte rom d).out ((u.cnt.toNat + 8) / 3) := by
  rw [EncUnit.takeByte_eq rom d u rfl]
  refine ⟨_, rfl, fun w hw => ?_, by simp⟩
  obtain ⟨g, -, rfl⟩ := List.mem_map.mp hw
  exact eoSymbol_end _

/-- Bytes append a symbol beat for every three bits that have come in. -/
theorem EncUnit.takeBytes_appends (rom : Rom) (bytes : List Byte) {u : EncUnit} (hc : u.cnt.toNat ≤ 2) :
    AppendsSymbols u.out (u.takeBytes rom bytes).out ((u.cnt.toNat + 8 * bytes.length) / 3) := by
  induction bytes generalizing u with
  | nil =>
    have hzero : (u.cnt.toNat + 8 * ([] : List Byte).length) / 3 = 0 := by rw [List.length_nil]; omega
    exact hzero ▸ .refl u.out
  | cons d bytes ih =>
    have hcnt := EncUnit.takeByte_cnt rom d u
    have sum : (u.cnt.toNat + 8) / 3 + ((u.takeByte rom d).cnt.toNat + 8 * bytes.length) / 3 =
        (u.cnt.toNat + 8 * (d :: bytes).length) / 3 := by rw [List.length_cons]; omega
    exact sum ▸ (EncUnit.takeByte_appends rom d u).trans (ih (by omega))

/-- `EEND` appends one symbol beat if there are residual bits, and then the end beat. -/
theorem EncUnit.finish_appends (rom : Rom) (u : EncUnit) :
    ∃ out, (u.finish rom).out = out ++ [eoEnd] ∧ AppendsSymbols u.out out ((u.cnt.toNat + 2) / 3) := by
  by_cases h : u.cnt = 0
  · exact ⟨u.out, by simp [EncUnit.finish_of_cnt_zero rom h], by rw [h]; exact .refl u.out⟩
  · refine ⟨_, by rw [EncUnit.finish_of_cnt_ne_zero rom h, EncUnit.idle_out, ← List.append_cons],
      [eoSymbol (symbolFor rom u.padGroup.toNat)], rfl, by simpa using eoSymbol_end _, ?_⟩
    have hlt := u.cnt.isLt
    have hpos : u.cnt.toNat ≠ 0 := fun h0 => h (BitVec.eq_of_toNat_eq h0)
    rw [List.length_singleton]
    omega

/-- A whole message from `E.cnt = 0` appends the symbol beats of rule R75 and then the end beat. -/
theorem EncUnit.message_appends (rom : Rom) (bytes : List Byte) {u : EncUnit} (h : u.cnt = 0) :
    ∃ out, ((u.takeBytes rom bytes).finish rom).out = out ++ [eoEnd] ∧
      AppendsSymbols u.out out (symbolCount bytes.length) := by
  have h0 : u.cnt.toNat = 0 := by rw [h]; rfl
  have hcnt := EncUnit.takeBytes_cnt rom bytes (u := u) (by omega)
  obtain ⟨out, hout, last⟩ := EncUnit.finish_appends rom (u.takeBytes rom bytes)
  have sum : (u.cnt.toNat + 8 * bytes.length) / 3 + ((u.takeBytes rom bytes).cnt.toNat + 2) / 3 =
      symbolCount bytes.length := by unfold symbolCount; omega
  exact ⟨out, hout, sum ▸ (EncUnit.takeBytes_appends rom bytes (by omega)).trans last⟩

/-- The model's integer form of `ceil(8n/3)` is the rational one. -/
theorem symbolCount_eq_ceil (n : Nat) : (symbolCount n : ℤ) = ⌈(8 * n : ℚ) / 3⌉ := by
  have below : 3 * symbolCount n ≤ 8 * n + 2 := by unfold symbolCount; omega
  have above : 8 * n ≤ 3 * symbolCount n := by unfold symbolCount; omega
  have belowQ : (3 * symbolCount n : ℚ) ≤ 8 * n + 2 := by exact_mod_cast below
  have aboveQ : (8 * n : ℚ) ≤ 3 * symbolCount n := by exact_mod_cast above
  rw [eq_comm, Int.ceil_eq_iff]
  push_cast
  constructor <;> linarith

/-- Settles O20: the run of the message is its bytes and its end taken by the unit, whose counter is `(8n) mod 3` at the end, so
that `EEND` rounds the number of groups up. -/
theorem encoderLengthLaw : Obligations.EncoderLengthLaw := by
  refine ⟨fun s k m bytes rest hm hidle hhost => ?_, fun q => ?_, symbolCount_eq_ceil⟩
  · obtain ⟨-, hcnt⟩ := hidle
    obtain ⟨hlt, -⟩ := List.getElem?_eq_some_iff.mp hm
    have hrun := run_encodeMessage bytes hm (by rw [hcnt]; decide) hhost
    obtain ⟨_, hout, beats, rfl, hend, hlen⟩ := EncUnit.message_appends s.cfg.rom bytes hcnt
    exact ⟨_, _, beats, hrun, List.getElem?_set_self hlt, hout, hend, by rw [hlen, symbolCount_eq_ceil]⟩
  · unfold symbolCount; omega

end Sys2Proof.Machine
end

section
/-!
PROOFS. The decoder unit `DEC` (spec file 42_decoder.md): when `DCHAR` goes on and with which unit state, the words of the
result beats, and what `DEND` appends in each of its cases.
-/

namespace Sys2Proof.Machine

/-! ### `DCHAR` on the unit (rules R82 to R88) -/

/-- Rule R88 in full: only a symbol that would complete a byte of a full buffer is refused. -/
theorem DecUnit.overflows_iff {p : Params} {c : Chr} {u : DecUnit} :
    u.overflows p c = true ↔
      u.obufIsFull p = true ∧ u.completesByte = true ∧ u.bad = false ∧ ∃ v, classify p.rom p.ws c = .symbol v := by
  have hsymbol : isSymbol p.rom p.ws c = true ↔ ∃ v, classify p.rom p.ws c = .symbol v := by
    simp [isSymbol, classify_eq_symbol_iff, Option.isSome_iff_exists]
  simp [DecUnit.overflows, hsymbol, and_assoc]

/-- A character that is no symbol is never refused. -/
theorem DecUnit.overflows_of_not_symbol {p : Params} {c : Chr} (u : DecUnit)
    (h : ∀ v, classify p.rom p.ws c ≠ .symbol v) : u.overflows p c = false :=
  Bool.eq_false_iff.mpr fun ho =>
    have ⟨_, _, _, v, hv⟩ := DecUnit.overflows_iff.mp ho
    h v hv

theorem DecUnit.takeChar_whitespace {p : Params} {c : Chr} (u : DecUnit) (h : classify p.rom p.ws c = .whitespace) :
    u.takeChar p c = u := by
  simp [DecUnit.takeChar, h]

theorem DecUnit.takeChar_symbol {p : Params} {c : Chr} {v : Val3} {u : DecUnit} (hb : u.bad = false)
    (h : classify p.rom p.ws c = .symbol v) : u.takeChar p c = u.takeSymbol v := by
  simp [DecUnit.takeChar, hb, h]

theorem DecUnit.takeChar_invalid {p : Params} {c c' : Chr} {u : DecUnit} (hb : u.bad = false)
    (h : classify p.rom p.ws c = .invalid c') : u.takeChar p c = u.latchInvalidSymbol c' := by
  simp [DecUnit.takeChar, hb, h]

theorem DecUnit.takeChar_bad {u : DecUnit} (p : Params) (c : Chr) (hb : u.bad = true) : u.takeChar p c = u :=
  if_pos hb

/-- Settles O24: whitespace is no symbol, so `DCHAR` is not refused, and the unit it writes back is the one it read. -/
theorem dcharWhitespaceChangesNothing : Obligations.DcharWhitespaceChangesNothing := by
  intro s m c hm _ hws
  have hc := (classify_eq_whitespace_iff s.cfg.rom s.cfg.ws c).mpr hws
  rw [exec_dchar c hm (m.dec.overflows_of_not_symbol (by simp [hc])), m.dec.takeChar_whitespace hc, State.setDec_self hm]

/-- Settles O27: an invalid character is no symbol, so `DCHAR` is not refused; it latches the character. -/
theorem dcharInvalidLatchesTheCharacter : Obligations.DcharInvalidLatchesTheCharacter := by
  intro s m c hm hb hws hv
  have hc := (classify_eq_invalid_iff s.cfg.rom s.cfg.ws c c).mpr ⟨rfl, hws, hv⟩
  rw [exec_dchar c hm (m.dec.overflows_of_not_symbol (by simp [hc])), DecUnit.takeChar_invalid hb hc]
  rfl

/-! ### The output beats (rules R50, R101) -/

/-- The word of a byte beat is the byte (rule R61). -/
theorem doByte_eq_setWidth (b : Byte) : doByte b = b.setWidth 24 := by
  refine BitVec.eq_of_toNat_eq ((BitVec.toNat_append 0#3 (b.setWidth 21)).trans ?_)
  rw [BitVec.toNat_setWidth_of_le (by decide), BitVec.toNat_setWidth_of_le (by decide)]
  simp

theorem doResult_end (st : BitVec 2) (c : Chr) : (doResult st c).getLsbD 23 = true := by
  show (1#1 ++ st ++ c : DO).getLsbD 23 = true
  rw [BitVec.getLsbD_append, BitVec.getLsbD_append]
  rfl

theorem doResult_status (st : BitVec 2) (c : Chr) : (doResult st c).extractLsb' 21 2 = st := by
  calc (doResult st c).extractLsb' 21 2
    _ = (1#1 ++ st).extractLsb' 0 2 := BitVec.extractLsb'_append_eq_of_le (xhi := 1#1 ++ st) (xlo := c) (by decide)
    _ = st := extractLsb'_ofBool_append true st

/-! ### `DEND` on the unit (rules R89 to R94) -/

/-- The outcome that `DEND` reports, by the tests of rule R89. -/
def DecUnit.result (p : Params) (u : DecUnit) : DecodeResult :=
  if u.bad then .invalidSymbol u.badch
  else if u.nbits.toNat ≥ 3 then .unexpectedEnd
  else if p.utf8Check && !utf8Ok u.obuf then .invalidUtf8
  else .ok u.obuf

theorem DecUnit.result_of_pass {p : Params} {u : DecUnit} (hb : u.bad = false) (hn : u.nbits.toNat < 3)
    (hu : p.utf8Check = false ∨ utf8Ok u.obuf = true) : u.result p = .ok u.obuf := by
  have hpass : (p.utf8Check && !utf8Ok u.obuf) = false := by rcases hu with h | h <;> simp [h]
  simp [DecUnit.result, hb, Nat.not_le.mpr hn, hpass]

/-- Only the bytes of `D.obuf` are ever delivered. -/
theorem DecUnit.result_eq_ok {p : Params} {u : DecUnit} {bytes : List Byte} (h : u.result p = .ok bytes) :
    bytes = u.obuf := by
  unfold DecUnit.result at h
  split_ifs at h
  exact (DecodeResult.ok.inj h).symm

/-- `DEND` appends the beats of the outcome and returns to idle. -/
theorem DecUnit.finish_eq (p : Params) (u : DecUnit) :
    u.finish p = DecUnit.idle (u.out ++ resultBeats (u.result p)) := by
  obtain ⟨hb, hf⟩ | ⟨hb, hn, hf⟩ | ⟨hb, hn, hc, hu, hf⟩ | ⟨hb, hn, hu, hf⟩ := u.finish_cases p
  · simp [hf, DecUnit.result, hb, resultBeats]
  · simp [hf, DecUnit.result, hb, hn, resultBeats]
  · simp [hf, DecUnit.result, hb, Nat.not_le.mpr hn, hc, hu, resultBeats]
  · rw [hf, DecUnit.result_of_pass hb hn hu, resultBeats]

theorem exec_dend_of_result {s : State} {m : Codec} {r : DecodeResult} (hm : s.codec? = some m)
    (hr : m.dec.result s.cfg = r) :
    exec .dend s = .next (s.setDec (DecUnit.idle (m.dec.out ++ resultBeats r))) := by
  rw [exec_dend hm, DecUnit.finish_eq, hr]

/-- Settles O29: the outcome is `InvalidSymbol` of the latched character, whatever the buffer holds. -/
theorem dendReportsInvalidSymbol : Obligations.DendReportsInvalidSymbol := fun _ m hm hb =>
  exec_dend_of_result (r := .invalidSymbol m.dec.badch) hm (if_pos hb)

/-- The beats of a success: each byte's own word, then 0x800000. -/
theorem resultBeats_ok (bytes : List Byte) :
    resultBeats (.ok bytes) = bytes.map (fun b => b.setWidth 24) ++ [0x800000] := by
  rw [resultBeats, funext doByte_eq_setWidth]
  rfl

/-- The beats of a failure: one result beat whose status is not `OK`. -/
theorem resultBeats_error {r : DecodeResult} (h : ∀ bytes, r ≠ .ok bytes) :
    ∃ w : DO, resultBeats r = [w] ∧ w.getLsbD 23 = true ∧ w.extractLsb' 21 2 ≠ 0 := by
  cases r with
  | ok bytes => exact absurd rfl (h bytes)
  | invalidSymbol c => exact ⟨_, rfl, doResult_end _ c, by rw [doResult_status]; decide⟩
  | unexpectedEnd => exact ⟨_, rfl, doResult_end _ 0, by rw [doResult_status]; decide⟩
  | invalidUtf8 => exact ⟨_, rfl, doResult_end _ 0, by rw [doResult_status]; decide⟩

/-- Settles O32: the tests of rule R89 all pass, so the outcome is `OK` with the bytes of `D.obuf`. -/
theorem dendDeliversTheBytes : Obligations.DendDeliversTheBytes := by
  intro s m hm hb hn hu
  rw [exec_dend_of_result hm (DecUnit.result_of_pass hb hn hu), resultBeats_ok, ← List.append_assoc]
  rfl

/-- Settles O33: the unit is idle afterwards; its outcome is `OK`, which delivers `D.obuf`, or an error, which is one beat. -/
theorem errorsEmitOneBeatOnly : Obligations.ErrorsEmitOneBeatOnly := by
  intro s m hm
  refine ⟨_, { m with dec := _ }, exec_dend_of_result hm rfl, by rw [State.setDec_codec?, hm]; rfl,
    ⟨rfl, rfl, rfl, rfl, rfl⟩, ?_⟩
  rw [DecUnit.idle_out]
  by_cases hok : ∃ bytes, m.dec.result s.cfg = .ok bytes
  · obtain ⟨bytes, hr⟩ := hok
    exact .inl (by rw [hr, DecUnit.result_eq_ok hr, resultBeats_ok, List.append_assoc])
  · obtain ⟨w, hw, hend, hst⟩ := resultBeats_error (not_exists.mp hok)
    exact .inr ⟨w, by rw [hw], hend, hst⟩

end Sys2Proof.Machine
end

section
/-!
PROOFS. A message of the decoder as the host runs it: the unit as a string of bits to which every symbol appends three, the
steps that consume the beats, and `decode` of rule R81 as what the whole message computes.
-/

namespace Sys2Proof.Machine

/-! ### Bit strings (rules R30, R31) -/

/-- The bits of a word, most significant first. -/
def wordBits {w : Nat} (x : BitVec w) : List Bool :=
  (List.range w).map x.getMsbD

theorem byteBits_eq_wordBits (b : Byte) : byteBits b = wordBits b := rfl

theorem valBits_eq_wordBits (v : Val3) : valBits v = wordBits v := rfl

@[simp] theorem wordBits_length {w : Nat} (x : BitVec w) : (wordBits x).length = w := by
  simp [wordBits]

theorem wordBits_append {m n : Nat} (x : BitVec m) (y : BitVec n) : wordBits (x ++ y) = wordBits x ++ wordBits y := by
  have hi : (List.range m).map (x ++ y).getMsbD = wordBits x := List.map_congr_left fun j hj => by
    rw [BitVec.getMsbD_append, if_neg (Nat.not_le.mpr (List.mem_range.mp hj))]
  have lo : (List.range n).map ((x ++ y).getMsbD ∘ (m + ·)) = wordBits y := List.map_congr_left fun j _ => by
    simp [BitVec.getMsbD_append]
  rw [wordBits, List.range_add, List.map_append, List.map_map, hi, lo]

/-- Cutting a word in two cuts its bits. -/
theorem wordBits_split {w m n : Nat} (x : BitVec w) (h : w = m + n) :
    wordBits x = wordBits (x.extractLsb' n m) ++ wordBits (x.extractLsb' 0 n) := by
  subst h
  rw [← wordBits_append, BitVec.extractLsb'_append_extractLsb'_eq_extractLsb' (Nat.zero_add n).symm,
    BitVec.extractLsb'_eq_self]

/-- The earliest bit is the most significant one of the number. -/
theorem bitsFrom_cons (b : Bool) (l : List Bool) (k : Nat) :
    bitsFrom (b :: l) 0 (k + 1) = b.toNat * 2 ^ k + bitsFrom l 0 k := by
  simp [bitsFrom, List.range_succ_eq_map, Function.comp_def, Nat.sub_sub, Nat.add_comm]

theorem bitsFrom_append (l l' : List Bool) (i k : Nat) :
    bitsFrom (l ++ l') (l.length + i) k = bitsFrom l' i k := by
  simp [bitsFrom, Nat.add_assoc, List.getElem?_append]

theorem wordBits_succ {w : Nat} (x : BitVec (w + 1)) : wordBits x = x.msb :: wordBits (x.setWidth w) := by
  have tail : (List.range w).map (x.getMsbD ∘ Nat.succ) = wordBits (x.setWidth w) := List.map_congr_left fun j hj => by
    have shift : j + (w + 1) - w = j + 1 := by omega
    simp [BitVec.getMsbD_setWidth, shift]
  rw [wordBits, List.range_succ_eq_map, List.map_cons, List.map_map, tail]
  rfl

/-- The number made of a word's bits is the word. -/
theorem bitsFrom_wordBits {w : Nat} (x : BitVec w) (rest : List Bool) :
    bitsFrom (wordBits x ++ rest) 0 w = x.toNat := by
  induction w with
  | zero => simp [bitsFrom, BitVec.of_length_zero]
  | succ w ih =>
    calc bitsFrom (wordBits x ++ rest) 0 (w + 1)
      _ = x.msb.toNat * 2 ^ w + (x.setWidth w).toNat := by
        rw [wordBits_succ, List.cons_append, bitsFrom_cons, ih]
      _ = (BitVec.cons x.msb (x.setWidth w)).toNat := by rw [BitVec.toNat_cons', Nat.shiftLeft_eq]
      _ = x.toNat := by rw [BitVec.cons_msb_setWidth]

theorem bitString_cons (b : Byte) (bytes : List Byte) : bitString (b :: bytes) = wordBits b ++ bitString bytes := by
  rw [bitString, List.flatMap_cons, byteBits_eq_wordBits, ← bitString]

theorem bitString_singleton (b : Byte) : bitString [b] = wordBits b :=
  (bitString_cons b []).trans (List.append_nil _)

theorem bitString_append (bytes more : List Byte) : bitString (bytes ++ more) = bitString bytes ++ bitString more :=
  List.flatMap_append

theorem bitString_length (bytes : List Byte) : (bitString bytes).length = 8 * bytes.length := by
  induction bytes with
  | nil => rfl
  | cons b bytes ih =>
    rw [bitString_cons, List.length_append, ih, wordBits_length, List.length_cons]
    omega

/-- Cutting the bit string of some bytes, whatever follows it, gives the bytes back (rules R30, R81 step 4). -/
theorem cutBytes_bitString_append (bytes : List Byte) (rest : List Bool) :
    cutBytes (bitString bytes ++ rest) bytes.length = bytes := by
  induction bytes with
  | nil => rfl
  | cons b bytes ih =>
    have hd : BitVec.ofNat 8 (bitsFrom (bitString (b :: bytes) ++ rest) 0 8) = b := by
      rw [bitString_cons, List.append_assoc, bitsFrom_wordBits, BitVec.ofNat_toNat, BitVec.setWidth_eq]
    have tl (i : Nat) : bitsFrom (bitString (b :: bytes) ++ rest) (8 * (i + 1)) 8 =
        bitsFrom (bitString bytes ++ rest) (8 * i) 8 := by
      rw [bitString_cons, List.append_assoc, Nat.mul_succ, Nat.add_comm]
      exact bitsFrom_append (wordBits b) _ _ _
    rw [List.length_cons, cutBytes, List.range_succ_eq_map, List.map_cons, List.map_map, Nat.mul_zero, hd]
    simp only [Function.comp_def, Nat.succ_eq_add_one, tl]
    exact congrArg (b :: ·) ih

/-! ### The decoder as a string of bits -/

/-- The bits the unit holds: those of the completed bytes, then the residual ones, the earliest first (rules R17, R21). -/
def DecUnit.bits (u : DecUnit) : List Bool :=
  bitString u.obuf ++ wordBits (u.acc.extractLsb' 0 u.nbits.toNat)

theorem DecUnit.bits_length (u : DecUnit) : u.bits.length = 8 * u.obuf.length + u.nbits.toNat := by
  rw [DecUnit.bits, List.length_append, bitString_length, wordBits_length]

/-- An idle unit holds no bits. -/
theorem DecUnit.bits_of_isIdle {u : DecUnit} (hu : u.isIdle) : u.bits = [] := by
  obtain ⟨-, hn, -, -, hobuf⟩ := hu
  exact List.length_eq_zero_iff.mp (by rw [DecUnit.bits_length, hobuf, hn]; rfl)

theorem DecUnit.obuf_length (u : DecUnit) : u.obuf.length = u.bits.length / 8 := by
  have hlt := u.nbits.isLt
  rw [DecUnit.bits_length]
  omega

theorem DecUnit.nbits_toNat (u : DecUnit) : u.nbits.toNat = u.bits.length % 8 := by
  have hlt := u.nbits.isLt
  rw [DecUnit.bits_length]
  omega

/-- The completed bytes are those that rule R81 cuts from the bits. -/
theorem DecUnit.obuf_eq_cutBytes (u : DecUnit) : u.obuf = cutBytes u.bits (u.bits.length / 8) := by
  rw [← DecUnit.obuf_length, DecUnit.bits, cutBytes_bitString_append]

/-- Keeping at most 7 bits in `D.acc` loses none of them. -/
theorem extractLsb'_setWidth_self {r : Nat} (x : BitVec r) (h : r ≤ 7) : (x.setWidth 7).extractLsb' 0 r = x := by
  rw [← BitVec.setWidth_eq_extractLsb' h, BitVec.setWidth_setWidth (by omega), BitVec.setWidth_eq]

theorem DecUnit.bits_of_residual {u : DecUnit} {r : Nat} (x : BitVec r) (hr : r < 8) (hacc : u.acc = x.setWidth 7)
    (hn : u.nbits = BitVec.ofNat 3 r) : u.bits = bitString u.obuf ++ wordBits x := by
  have hnbits : u.nbits.toNat = r := by rw [hn, BitVec.toNat_ofNat, Nat.mod_eq_of_lt hr]
  rw [DecUnit.bits, hnbits, hacc, extractLsb'_setWidth_self x (by omega)]

/-- Rule R84 in closed form, `k` being the number of residual bits: they and the value make one word, whose top is the byte, if
one is complete; what is left of the word stays. -/
theorem DecUnit.takeSymbol_eq (v : Val3) (u : DecUnit) {k : Nat} (h : u.nbits.toNat = k) :
    u.takeSymbol v =
      if 5 ≤ k then
        { u with
          obuf := u.obuf ++ [(u.acc.extractLsb' 0 k ++ v).extractLsb' (k - 5) 8]
          acc := ((u.acc.extractLsb' 0 k ++ v).extractLsb' 0 (k - 5)).setWidth 7
          nbits := BitVec.ofNat 3 (k - 5) }
      else
        { u with
          acc := (u.acc.extractLsb' 0 k ++ v).setWidth 7
          nbits := BitVec.ofNat 3 (k + 3) } := by
  subst h
  have hcomp : u.completesByte = decide (5 ≤ u.nbits.toNat) := by simp [DecUnit.completesByte]
  simp only [DecUnit.takeSymbol, hcomp, joinResidual_eq_toNat, ofNat_toNat_mod_two_pow,
    BitVec.extractLsb'_eq_self, decide_eq_true_eq]
  split
  next h5 =>
    rw [ofNat_slice _ (by omega), show u.nbits.toNat + 3 - 8 = u.nbits.toNat - 5 by omega]
  next => rfl

/-- A symbol appends the three bits of its value (rules R31, R84), in every phase. -/
theorem DecUnit.takeSymbol_bits (v : Val3) (u : DecUnit) : (u.takeSymbol v).bits = u.bits ++ valBits v := by
  generalize hk : u.nbits.toNat = k
  have hlt : k < 8 := hk ▸ u.nbits.isLt
  have hbits : u.bits ++ valBits v = bitString u.obuf ++ wordBits (u.acc.extractLsb' 0 k ++ v) := by
    rw [DecUnit.bits, hk, valBits_eq_wordBits, List.append_assoc, wordBits_append]
  rw [hbits, DecUnit.takeSymbol_eq v u hk]
  split
  next h5 =>
    rw [DecUnit.bits_of_residual _ (by omega) rfl rfl, wordBits_split _ (by omega : k + 3 = 8 + (k - 5)),
      ← List.append_assoc, bitString_append, bitString_singleton]
  next h5 => rw [DecUnit.bits_of_residual _ (by omega) rfl rfl]

/-! ### The characters of a message on the unit -/

/-- `DCHAR` for each of the characters, on the unit. -/
def DecUnit.takeChars (p : Params) (chars : List Chr) (u : DecUnit) : DecUnit :=
  chars.foldl (fun u c => u.takeChar p c) u

@[simp] theorem DecUnit.takeChars_nil (p : Params) (u : DecUnit) : u.takeChars p [] = u := rfl
@[simp] theorem DecUnit.takeChars_cons (p : Params) (c : Chr) (chars : List Chr) (u : DecUnit) :
    u.takeChars p (c :: chars) = (u.takeChar p c).takeChars p chars := rfl

theorem DecUnit.takeChar_out (p : Params) (c : Chr) (u : DecUnit) : (u.takeChar p c).out = u.out := by
  obtain ⟨-, h⟩ | ⟨-, -, h⟩ | ⟨v, -, -, h⟩ | ⟨c', -, -, h⟩ := u.takeChar_cases p c <;> simp [h]

theorem DecUnit.takeChars_out (p : Params) (chars : List Chr) (u : DecUnit) : (u.takeChars p chars).out = u.out := by
  induction chars generalizing u with
  | nil => rfl
  | cons c chars ih => rw [DecUnit.takeChars_cons, ih, DecUnit.takeChar_out]

/-- Rule R86: once the error is latched, the rest of the message is drained. -/
theorem DecUnit.takeChars_bad {p : Params} {u : DecUnit} (chars : List Chr) (hb : u.bad = true) :
    u.takeChars p chars = u := by
  induction chars with
  | nil => rfl
  | cons c chars ih => rw [DecUnit.takeChars_cons, DecUnit.takeChar_bad p c hb, ih]

section
variable {c : Chr} (chars : List Chr)

theorem stripWs_cons_of_whitespace {ws : List Chr} (hw : isWs ws c = true) :
    stripWs ws (c :: chars) = stripWs ws chars := by
  simp [stripWs, hw]

theorem stripWs_cons_of_not_whitespace {ws : List Chr} (hw : isWs ws c = false) :
    stripWs ws (c :: chars) = c :: stripWs ws chars := by
  simp [stripWs, hw]

theorem firstInvalid_cons_of_symbol {rom : Rom} {v : Val3} (hv : valueFor rom c = some v) :
    firstInvalid rom (c :: chars) = firstInvalid rom chars := by
  simp [firstInvalid, hv]

theorem firstInvalid_cons_of_invalid {rom : Rom} (hv : valueFor rom c = none) :
    firstInvalid rom (c :: chars) = some c := by
  simp [firstInvalid, hv]

theorem valueBits_cons_of_symbol {rom : Rom} {v : Val3} (hv : valueFor rom c = some v) :
    valueBits rom (c :: chars) = valBits v ++ valueBits rom chars := by
  simp [valueBits, hv]

end

/-- Step 2 of rule R81 on the unit: the character latched is the first that has no value. -/
theorem DecUnit.takeChars_of_firstInvalid {p : Params} {chars : List Chr} {u : DecUnit} {c : Chr} (hb : u.bad = false)
    (h : firstInvalid p.rom (stripWs p.ws chars) = some c) :
    (u.takeChars p chars).bad = true ∧ (u.takeChars p chars).badch = c := by
  induction chars generalizing u with
  | nil => simp [stripWs, firstInvalid] at h
  | cons d chars ih =>
    rw [DecUnit.takeChars_cons]
    obtain ⟨hw, hd⟩ | ⟨v, hw, hv, hd⟩ | ⟨hw, hv, hd⟩ := classify_cases p.rom p.ws d
    · rw [stripWs_cons_of_whitespace _ hw] at h
      rw [u.takeChar_whitespace hd]
      exact ih hb h
    · rw [stripWs_cons_of_not_whitespace _ hw, firstInvalid_cons_of_symbol _ hv] at h
      rw [DecUnit.takeChar_symbol hb hd]
      exact ih (by rw [DecUnit.takeSymbol_bad, hb]) h
    · rw [stripWs_cons_of_not_whitespace _ hw, firstInvalid_cons_of_invalid _ hv] at h
      rw [DecUnit.takeChar_invalid hb hd, DecUnit.takeChars_bad _ (DecUnit.latch_bad d u)]
      exact ⟨rfl, Option.some.inj h⟩

/-- Step 3 of rule R81 on the unit: where every character has a value, the unit has taken in the bits of the values. -/
theorem DecUnit.takeChars_of_valid {p : Params} {chars : List Chr} {u : DecUnit} (hb : u.bad = false)
    (h : firstInvalid p.rom (stripWs p.ws chars) = none) :
    (u.takeChars p chars).bad = false ∧ (u.takeChars p chars).bits = u.bits ++ valueBits p.rom (stripWs p.ws chars) := by
  induction chars generalizing u with
  | nil => exact ⟨hb, (List.append_nil _).symm⟩
  | cons d chars ih =>
    rw [DecUnit.takeChars_cons]
    obtain ⟨hw, hd⟩ | ⟨v, hw, hv, hd⟩ | ⟨hw, hv, hd⟩ := classify_cases p.rom p.ws d
    · rw [stripWs_cons_of_whitespace _ hw] at h ⊢
      rw [u.takeChar_whitespace hd]
      exact ih hb h
    · rw [stripWs_cons_of_not_whitespace _ hw] at h ⊢
      rw [firstInvalid_cons_of_symbol _ hv] at h
      rw [DecUnit.takeChar_symbol hb hd, valueBits_cons_of_symbol _ hv, ← List.append_assoc, ← DecUnit.takeSymbol_bits]
      exact ih (by rw [DecUnit.takeSymbol_bad, hb]) h
    · rw [stripWs_cons_of_not_whitespace _ hw, firstInvalid_cons_of_invalid _ hv] at h
      cases h

/-- Every value gives three bits. -/
theorem valueBits_length {rom : Rom} {stripped : List Chr} (h : firstInvalid rom stripped = none) :
    (valueBits rom stripped).length = 3 * stripped.length := by
  induction stripped with
  | nil => rfl
  | cons c stripped ih =>
    cases hv : valueFor rom c with
    | none => rw [firstInvalid_cons_of_invalid _ hv] at h; cases h
    | some v =>
      rw [firstInvalid_cons_of_symbol _ hv] at h
      rw [valueBits_cons_of_symbol _ hv, List.length_append, ih h, valBits_eq_wordBits, wordBits_length, List.length_cons]
      omega

/-- An idle unit that takes a whole message reports the result of `decode` (rule R81). -/
theorem DecUnit.result_takeChars {u : DecUnit} (p : Params) (chars : List Chr) (hu : u.isIdle) :
    (u.takeChars p chars).result p = decodeStream p chars := by
  have ⟨_, _, hb, _, _⟩ := hu
  cases h : firstInvalid p.rom (stripWs p.ws chars) with
  | some c =>
    obtain ⟨hbad, hbadch⟩ := DecUnit.takeChars_of_firstInvalid hb h
    simp only [DecUnit.result, hbad, hbadch, decodeStream, h, if_true]
  | none =>
    obtain ⟨hgood, hbits⟩ := DecUnit.takeChars_of_valid hb h
    rw [DecUnit.bits_of_isIdle hu, List.nil_append] at hbits
    simp only [DecUnit.result, hgood, DecUnit.nbits_toNat, DecUnit.obuf_eq_cutBytes (u.takeChars p chars), hbits,
      valueBits_length h, decodeStream, h, Bool.false_eq_true, if_false]

/-! ### Room in `D.obuf` (rules R84, R88, R124) -/

/-- The bits the unit holds and those of the symbols still to be accepted make no more bytes than `OBUF_CAP`. -/
def DecUnit.HasRoom (p : Params) (chars : List Chr) (u : DecUnit) : Prop :=
  u.bad = false → ∀ cap, p.obufCap = some cap → (u.bits.length + 3 * acceptedSymbols p chars) / 8 ≤ cap

theorem acceptedSymbols_cons_of_whitespace {p : Params} {c : Chr} (chars : List Chr) (hw : isWs p.ws c = true) :
    acceptedSymbols p (c :: chars) = acceptedSymbols p chars := by
  rw [acceptedSymbols, stripWs_cons_of_whitespace _ hw, ← acceptedSymbols]

theorem acceptedSymbols_cons_of_symbol {p : Params} {c : Chr} {v : Val3} (chars : List Chr) (hw : isWs p.ws c = false)
    (hv : valueFor p.rom c = some v) : acceptedSymbols p (c :: chars) = acceptedSymbols p chars + 1 := by
  simp [acceptedSymbols, stripWs_cons_of_not_whitespace _ hw, hv]

/-- With room for the whole message its first character is not refused. -/
theorem DecUnit.HasRoom.not_overflows {p : Params} {c : Chr} {chars : List Chr} {u : DecUnit}
    (h : u.HasRoom p (c :: chars)) : u.overflows p c = false := by
  refine Bool.eq_false_iff.mpr fun ho => ?_
  obtain ⟨hfull, hcomp, hb, v, hc⟩ := DecUnit.overflows_iff.mp ho
  obtain ⟨hw, hv⟩ := (classify_eq_symbol_iff p.rom p.ws c v).mp hc
  cases hcap : p.obufCap with
  | none => simp [DecUnit.obufIsFull, hcap] at hfull
  | some cap =>
    have hle : cap ≤ u.obuf.length := by simpa [DecUnit.obufIsFull, hcap] using hfull
    have hphase : u.nbits.toNat + 3 ≥ 8 := by simpa [DecUnit.completesByte] using hcomp
    have hroom := h hb cap hcap
    rw [acceptedSymbols_cons_of_symbol _ hw hv, DecUnit.bits_length] at hroom
    omega

/-- A character leaves room for the rest of the message. -/
theorem DecUnit.HasRoom.takeChar {p : Params} {c : Chr} {chars : List Chr} {u : DecUnit}
    (h : u.HasRoom p (c :: chars)) : (u.takeChar p c).HasRoom p chars := by
  cases hb : u.bad with
  | true => rw [DecUnit.takeChar_bad p c hb]; exact fun hb' => absurd (hb.symm.trans hb') (by decide)
  | false =>
    have hroom := h hb
    obtain ⟨hw, hc⟩ | ⟨v, hw, hv, hc⟩ | ⟨hw, hv, hc⟩ := classify_cases p.rom p.ws c
    · rw [u.takeChar_whitespace hc]
      rw [acceptedSymbols_cons_of_whitespace _ hw] at hroom
      exact fun _ => hroom
    · rw [DecUnit.takeChar_symbol hb hc]
      intro _ cap hcap
      have hcount := hroom cap hcap
      rw [acceptedSymbols_cons_of_symbol _ hw hv] at hcount
      rw [DecUnit.takeSymbol_bits, List.length_append, valBits_eq_wordBits, wordBits_length]
      omega
    · rw [DecUnit.takeChar_invalid hb hc]
      exact fun hb' => absurd hb' (by simp)

/-! ### Steps and runs over the beats of `DEC` -/

/-- A step that consumes the canonical beat of a command runs the command, with the position on its channel moved on. -/
theorem step_eq_exec {s : State} {k : Nat} {m : Codec} {i : Instr} {rest : List Move}
    (hm : s.insts[k]? = some m) (hhost : s.host = ⟨k, .beat (encode i)⟩ :: rest) :
    step s = exec i { s with
      host := rest, sel := k, insts := s.insts.set k (m.track (.beat (encode i))) } := by
  have hcodec : ({ s with host := rest, sel := k } : State).codec? = some m := hm
  rw [step_cons hhost, State.track_eq_set _ hcodec]
  show exec (decodeBeat (encode i)) _ = _
  rw [decodeBeat_encode]

/-- A step that consumes the beat of a decoder command which answers the decoder `d`: the rest of the machine. -/
theorem step_of_exec_setDec {s : State} {k : Nat} {m : Codec} {i : Instr} {rest : List Move} {d : DecUnit}
    (hm : s.insts[k]? = some m) (hhost : s.host = ⟨k, .beat (encode i)⟩ :: rest) (hu : i.unit = .dec)
    (hx : ∀ t n, t.codec? = some n → n.dec = m.dec → t.cfg = s.cfg → exec i t = .next (t.setDec d)) :
    step s = .next { s with
      host := rest, sel := k,
      insts := s.insts.set k { m with dec := d, decPos := if i.closes then 0 else m.decPos + 1 } } := by
  obtain ⟨hlt, -⟩ := List.getElem?_eq_some_iff.mp hm
  have hunit : (encode i).unit = .dec := by rw [← decodeBeat_unit, decodeBeat_encode, hu]
  have hcodec : ({ s with host := rest, sel := k, insts := s.insts.set k (m.track (.beat (encode i))) } : State).codec? =
      some (m.track (.beat (encode i))) := List.getElem?_set_self hlt
  rw [step_eq_exec hm hhost, hx _ _ hcodec (Codec.track_dec _ m) rfl, State.setDec_eq_set d hcodec]
  simp [Codec.track_beat, hunit]

theorem step_dchar {s : State} {k : Nat} {m : Codec} {c : Chr} {rest : List Move} (hm : s.insts[k]? = some m)
    (hc : m.dec.overflows s.cfg c = false) (hhost : s.host = ⟨k, .beat (encode (.dchar c))⟩ :: rest) :
    step s = .next { s with
      host := rest, sel := k,
      insts := s.insts.set k { m with dec := m.dec.takeChar s.cfg c, decPos := m.decPos + 1 } } :=
  step_of_exec_setDec hm hhost rfl fun t n ht hd hcfg => by rw [exec_dchar c ht (by rw [hd, hcfg, hc]), hd, hcfg]

theorem step_dend {s : State} {k : Nat} {m : Codec} {rest : List Move} (hm : s.insts[k]? = some m)
    (hhost : s.host = ⟨k, .beat (encode .dend)⟩ :: rest) :
    step s = .next { s with
      host := rest, sel := k,
      insts := s.insts.set k { m with dec := m.dec.finish s.cfg, decPos := 0 } } :=
  step_of_exec_setDec hm hhost rfl fun t n ht hd hcfg => by rw [exec_dend ht, hd, hcfg]

/-- The run of one message for which there is room: all its beats are consumed and the unit has taken its characters and
finished. -/
theorem run_decodeMessage {s : State} {k : Nat} {m : Codec} {rest : List Move} (chars : List Chr)
    (hm : s.insts[k]? = some m) (hroom : m.dec.HasRoom s.cfg chars)
    (hhost : s.host = movesOf k (decodeMessage chars) ++ rest) :
    run (chars.length + 1) s = .next { s with
      host := rest, sel := k,
      insts := s.insts.set k { m with dec := (m.dec.takeChars s.cfg chars).finish s.cfg, decPos := 0 } } := by
  induction chars generalizing s m with
  | nil => exact run_succ_of_step 0 (step_dend hm hhost)
  | cons c chars ih =>
    obtain ⟨hlt, -⟩ := List.getElem?_eq_some_iff.mp hm
    rw [List.length_cons, run_succ_of_step _ (step_dchar hm hroom.not_overflows hhost),
      ih (List.getElem?_set_self hlt) hroom.takeChar rfl]
    simp [List.set_set]

/-- Settles O37: every symbol appends its three bits to those the unit holds, so at `DEND` the unit holds the bits that `decode`
cuts into bytes, or has latched the character that `decode` names; the result fits, so no character is refused. -/
theorem decoderMessageEqualsReference : Obligations.DecoderMessageEqualsReference := by
  intro s k m chars rest hm hidle hfits hhost
  have hroom : m.dec.HasRoom s.cfg chars := fun _ cap hcap => by
    rw [DecUnit.bits_of_isIdle hidle, List.length_nil, Nat.zero_add]
    exact hfits cap hcap
  rw [run_decodeMessage chars hm hroom hhost, DecUnit.finish_eq, DecUnit.takeChars_out, DecUnit.result_takeChars _ _ hidle]
  rfl

end Sys2Proof.Machine
end

section
/-!
PROOFS. The error `InvalidUtf8` (spec file 60_exceptions.md): the one beat that names it, and when `DEND` reports it.
-/

namespace Sys2Proof.Machine

/-- What is written to the decoder of an instance that exists can be read back, so different units give different states. -/
theorem State.setDec_inj {s : State} {m : Codec} {d d' : DecUnit} (h : s.codec? = some m) :
    s.setDec d = s.setDec d' ↔ d = d' := by
  refine ⟨fun heq => ?_, fun heq => by rw [heq]⟩
  have hcodec : (s.setDec d).codec? = (s.setDec d').codec? := by rw [heq]
  rw [State.setDec_codec?, State.setDec_codec?, h] at hcodec
  exact congrArg Codec.dec (Option.some.inj hcodec)

theorem DecUnit.idle_inj {o o' : List DO} : DecUnit.idle o = DecUnit.idle o' ↔ o = o' :=
  ⟨fun h => congrArg DecUnit.out h, fun h => by rw [h]⟩

/-- The order of the tests of rule R89, read for its third failure. -/
theorem DecUnit.result_eq_invalidUtf8_iff {p : Params} {u : DecUnit} :
    u.result p = .invalidUtf8 ↔
      u.bad = false ∧ u.nbits.toNat < 3 ∧ p.utf8Check = true ∧ utf8Ok u.obuf = false := by
  unfold DecUnit.result
  split
  next hb => simp [hb]
  next hb =>
    split
    next hn => simp [Nat.not_lt.mpr hn]
    next hn =>
      have hlt : u.nbits.toNat < 3 := Nat.not_le.mp hn
      split <;> next hu => simpa [hb, hlt] using hu

/-- The beat 0xE00000 alone is delivered for no other outcome: a success ends with 0x800000, and the other two errors carry
other status codes (rule R101). -/
theorem resultBeats_eq_invalidUtf8_iff {r : DecodeResult} : resultBeats r = [0xE00000] ↔ r = .invalidUtf8 := by
  cases r with
  | ok bytes =>
    refine iff_of_false (fun h => ?_) nofun
    rw [resultBeats_ok] at h
    have hlast : (0x800000 : DO) = 0xE00000 := by simpa using congrArg List.getLast? h
    exact absurd hlast (by decide)
  | invalidSymbol c =>
    refine iff_of_false (fun h => ?_) nofun
    have hstatus := congrArg (BitVec.extractLsb' 21 2) (List.singleton_inj.mp h)
    rw [doResult_status] at hstatus
    exact absurd hstatus (by decide)
  | unexpectedEnd => decide
  | invalidUtf8 => decide

/-- Settles O31: the next state has the beat 0xE00000 and an idle decoder only if that beat is all the outcome delivers, so only
if the outcome is `InvalidUtf8`, which the tests of rule R89 give under the four conditions. -/
theorem dendReportsInvalidUtf8 : Obligations.DendReportsInvalidUtf8 := by
  intro s m hm
  rw [exec_dend_of_result hm rfl, Host.Outcome.next.injEq, State.setDec_inj hm]
  calc DecUnit.idle (m.dec.out ++ resultBeats (m.dec.result s.cfg)) = DecUnit.idle (m.dec.out ++ [0xE00000])
    _ ↔ resultBeats (m.dec.result s.cfg) = [0xE00000] := DecUnit.idle_inj.trans (List.append_right_inj _)
    _ ↔ m.dec.result s.cfg = .invalidUtf8 := resultBeats_eq_invalidUtf8_iff
    _ ↔ _ := DecUnit.result_eq_invalidUtf8_iff

end Sys2Proof.Machine
end

section
/-!
PROOFS. The input beats (spec file 30_encoding.md): a beat is its two fields, one bit selects the command, and the containers of
the opcode table hold the beats as numbers.
-/

namespace Sys2Proof.Machine

/-! ### A beat and its fields (rules R47, R49) -/

/-- A word is its top bit followed by the rest. -/
theorem ofBool_append_fields {n : Nat} (x : BitVec (1 + n)) :
    BitVec.ofBool (x.getLsbD n) ++ x.extractLsb' 0 n = x := by
  have top : BitVec.ofBool (x.getLsbD n) = x.extractLsb' n 1 := by
    refine BitVec.eq_of_getLsbD_eq fun i hi => ?_
    obtain rfl : i = 0 := by omega
    simp
  rw [top, BitVec.extractLsb'_append_extractLsb'_eq_extractLsb' (Nat.zero_add n).symm, BitVec.extractLsb'_eq_self]

theorem eiWord_fields (w : EI) : eiWord (eiEnd w) (eiData w) = w := ofBool_append_fields (n := 8) w
theorem diWord_fields (w : DI) : diWord (diEnd w) (diCh w) = w := ofBool_append_fields (n := 21) w

theorem eiData_eq_setWidth (w : EI) : eiData w = w.setWidth 8 := (BitVec.setWidth_eq_extractLsb' (by decide)).symm
theorem diCh_eq_setWidth (w : DI) : diCh w = w.setWidth 21 := (BitVec.setWidth_eq_extractLsb' (by decide)).symm

/-- The `mask` column of rule R54 on `EI` words: it leaves the bit `end`. -/
theorem ei_mask (w : EI) : w &&& 0x100 = if eiEnd w then 0x100 else 0 := BitVec.and_twoPow w 8
/-- The `mask` column of rule R54 on `DI` words: it leaves the bit `end`. -/
theorem di_mask (w : DI) : w &&& 0x200000 = if diEnd w then 0x200000 else 0 := BitVec.and_twoPow w 21

/-- A closing beat is canonical when its ignored field is 0 (rule R55). -/
theorem eiWord_closing_eq_iff {w : EI} (h : eiEnd w = true) : eiWord true 0 = w ↔ eiData w = 0 :=
  ⟨fun hw => by rw [← hw, eiData_eiWord], fun hd => by rw [← h, ← hd, eiWord_fields]⟩
theorem diWord_closing_eq_iff {w : DI} (h : diEnd w = true) : diWord true 0 = w ↔ diCh w = 0 :=
  ⟨fun hw => by rw [← hw, diCh_diWord], fun hd => by rw [← h, ← hd, diWord_fields]⟩

/-! ### Decoding (rules R54, R55) -/

theorem decodeEI_of_closing {w : EI} (h : eiEnd w = true) : decodeEI w = .eend := if_pos h
theorem decodeEI_of_data {w : EI} (h : eiEnd w = false) : decodeEI w = .ebyte (eiData w) := by simp [decodeEI, h]
theorem decodeDI_of_closing {w : DI} (h : diEnd w = true) : decodeDI w = .dend := if_pos h
theorem decodeDI_of_data {w : DI} (h : diEnd w = false) : decodeDI w = .dchar (diCh w) := by simp [decodeDI, h]

theorem encode_unit (i : Instr) : (encode i).unit = i.unit := by rw [← decodeBeat_unit, decodeBeat_encode]

/-- A beat's number stands for the beat on the beat's channel. -/
theorem beatOfWord_toNat (b : Beat) : beatOfWord b.unit b.toNat = .ok b := by
  cases b with
  | ei w =>
    have fits : UnitName.enc.wordWellFormed w.toNat = true := decide_eq_true w.isLt
    simp [beatOfWord, Beat.unit, Beat.toNat, fits]
  | di w =>
    have fits : UnitName.dec.wordWellFormed w.toNat = true := decide_eq_true w.isLt
    simp [beatOfWord, Beat.unit, Beat.toNat, fits]

/-- The canonical beat's number, in a container of its channel, decodes to the command. -/
theorem decodeTableWord_encode {nbits : Nat} {i : Instr} (h : tableUnit nbits = i.unit) :
    decodeTableWord nbits (encode i).toNat = some i := by
  rw [decodeTableWord, tableBeat, h, ← encode_unit, beatOfWord_toNat, Option.map_some, decodeBeat_encode]

/-- Settles O4: decoding reads back the fields that encoding wrote, and a container of the right channel holds the beat's
number. -/
theorem decodeInvertsEncode : Obligations.DecodeInvertsEncode := fun i =>
  ⟨decodeBeat_encode i, fun hu => decodeTableWord_encode hu.symm, fun hu => decodeTableWord_encode hu.symm⟩

/-- Settles O5: a data beat is its fields; a closing beat is the canonical one exactly when the ignored field is 0. -/
theorem encodeInvertsDecodeOnCanonicalBeats : Obligations.EncodeInvertsDecodeOnCanonicalBeats := by
  refine ⟨fun w => ?_, fun w => ?_⟩
  · rw [← eiData_eq_setWidth]
    change _ ↔ (eiEnd w = true → _)
    cases h : eiEnd w with
    | true => simpa [decodeEI_of_closing h, encode] using eiWord_closing_eq_iff h
    | false => simpa [decodeEI_of_data h, encode, h] using eiWord_fields w
  · rw [← diCh_eq_setWidth]
    change _ ↔ (diEnd w = true → _)
    cases h : diEnd w with
    | true => simpa [decodeDI_of_closing h, encode] using diWord_closing_eq_iff h
    | false => simpa [decodeDI_of_data h, encode, h] using diWord_fields w

/-- Settles O1: under the mask a word shows its bit `end`, and that bit is what the decoder tests. -/
theorem commandMapFollowsTheTable : Obligations.CommandMapFollowsTheTable := by
  refine ⟨fun w => ?_, fun w => ?_⟩
  · rw [ei_mask, ← eiData_eq_setWidth]
    cases h : eiEnd w with
    | true => simp [decodeEI_of_closing h]
    | false => simp [decodeEI_of_data h]
  · rw [di_mask, ← diCh_eq_setWidth]
    cases h : diEnd w with
    | true => simp [decodeDI_of_closing h]
    | false => simp [decodeDI_of_data h]

/-- Settles O2: the decoder tests only the bit `end`. -/
theorem ignoredFieldsDoNotMatter : Obligations.IgnoredFieldsDoNotMatter :=
  ⟨fun d => decodeEI_of_closing (eiEnd_eiWord true d), fun c => decodeDI_of_closing (diEnd_diWord true c), rfl, rfl⟩

/-- Settles O3: four words, decoded. -/
theorem wordsOfTheProgramsDecode : Obligations.WordsOfTheProgramsDecode := by
  unfold Obligations.WordsOfTheProgramsDecode
  decide

end Sys2Proof.Machine
end

section
/-!
PROOFS. The laws of the symbol mapping for every admissible alphabet (spec file 40_symbol_map.md), the default whitespace set,
and the constraints that the start of a machine checks (rules R6, R7, R65).
-/

namespace Sys2Proof.Machine

/-! ### The ROM as the list of its eight entries (rules R36, R63) -/

theorem symbolFor_eq_getElem (rom : Rom) {i : Nat} (h : i < rom.toList.length) : symbolFor rom i = rom.toList[i] := by
  have hi : i % 8 = i := Nat.mod_eq_of_lt (by simpa using h)
  simp [symbolFor, hi]

theorem symbolFor_mod (rom : Rom) (x : Nat) : symbolFor rom x = symbolFor rom (x % 8) := by simp [symbolFor]

theorem mem_rom_iff {rom : Rom} {c : Chr} : c ∈ rom.toList ↔ ∃ i < 8, symbolFor rom i = c := by
  refine ⟨fun h => ?_, fun ⟨i, _, hi⟩ => hi ▸ symbolFor_mem_rom rom i⟩
  obtain ⟨i, hi, rfl⟩ := List.mem_iff_getElem.mp h
  exact ⟨i, by simpa using hi, symbolFor_eq_getElem rom hi⟩

/-- A claim on all symbols is one on the eight addresses. -/
theorem forall_mem_rom_iff {rom : Rom} {P : Chr → Prop} : (∀ c ∈ rom.toList, P c) ↔ ∀ i < 8, P (symbolFor rom i) :=
  ⟨fun h i _ => h _ (symbolFor_mem_rom rom i), fun h _ hc => have ⟨i, hi, hs⟩ := mem_rom_iff.mp hc; hs ▸ h i hi⟩

/-- Rule R7 (a), on the addresses. -/
theorem rom_nodup_iff {rom : Rom} :
    rom.toList.Nodup ↔ ∀ i < 8, ∀ j < 8, symbolFor rom i = symbolFor rom j → i = j := by
  have hlen : rom.toList.length = 8 := Vector.length_toList
  refine ⟨fun h i hi j hj hs => ?_, fun h => List.nodup_iff_injective_getElem.mpr fun i j hs => Fin.ext ?_⟩
  · rw [symbolFor_eq_getElem rom (by omega), symbolFor_eq_getElem rom (by omega)] at hs
    exact h.getElem_inj_iff.mp hs
  · refine h i (by omega) j (by omega) ?_
    rw [symbolFor_eq_getElem rom i.isLt, symbolFor_eq_getElem rom j.isLt]
    exact hs

/-! ### Both directions of the mapping (rules R63, R64, R66) -/

theorem mem_allVal3 (v : Val3) : v ∈ allVal3 := by revert v; decide

/-- Different values have different symbols. -/
theorem symbolFor_val_inj (p : Params) {v w : Val3} (h : symbolFor p.rom v.toNat = symbolFor p.rom w.toNat) : v = w := by
  obtain ⟨⟨distinct, -⟩, -⟩ := p.ok
  exact BitVec.eq_of_toNat_eq (rom_nodup_iff.mp distinct _ v.isLt _ w.isLt h)

/-- The look-up of a symbol gives its value back. -/
theorem valueFor_symbolFor (p : Params) (v : Val3) : valueFor p.rom (symbolFor p.rom v.toNat) = some v := by
  cases h : valueFor p.rom (symbolFor p.rom v.toNat) with
  | none => exact absurd (List.find?_eq_none.mp h v (mem_allVal3 v)) (by simp)
  | some w => rw [symbolFor_val_inj p (symbolFor_of_valueFor h)]

theorem valueFor_eq_some_iff (p : Params) {c : Chr} {v : Val3} :
    valueFor p.rom c = some v ↔ symbolFor p.rom v.toNat = c :=
  ⟨symbolFor_of_valueFor, fun h => h ▸ valueFor_symbolFor p v⟩

/-- The characters with a value are the ROM's entries. -/
theorem valueFor_isSome_iff (p : Params) {c : Chr} : (valueFor p.rom c).isSome = true ↔ c ∈ p.rom.toList := by
  rw [Option.isSome_iff_exists, mem_rom_iff]
  refine ⟨fun ⟨v, hv⟩ => ⟨v.toNat, v.isLt, symbolFor_of_valueFor hv⟩, fun ⟨i, hi, hs⟩ => ⟨BitVec.ofNat 3 i, ?_⟩⟩
  rw [valueFor_eq_some_iff, BitVec.toNat_ofNat, ← symbolFor_mod, hs]

theorem valueFor_eq_none_iff (p : Params) {c : Chr} : valueFor p.rom c = none ↔ c ∉ p.rom.toList := by
  rw [← valueFor_isSome_iff, Option.not_isSome_iff_eq_none]

/-- Settles O8: the ROM's entries are distinct, so the look-up inverts it; the characters with a value are its eight entries. -/
theorem symbolMappingIsABijection : Obligations.SymbolMappingIsABijection := by
  intro p
  obtain ⟨⟨distinct, -⟩, -⟩ := p.ok
  exact ⟨valueFor_symbolFor p, fun _ _ => symbolFor_of_valueFor, symbolFor_mod p.rom,
    p.rom.toList, distinct, Vector.length_toList, fun _ => (valueFor_isSome_iff p).symm⟩

/-! ### Particular characters -/

theorem isScalar_iff {c : Chr} :
    isScalar c = true ↔ c.toNat < 0xD800 ∨ (0xE000 ≤ c.toNat ∧ c.toNat < 0x110000) := by
  simp only [isScalar, Bool.or_eq_true, Bool.and_eq_true, decide_eq_true_eq]
  omega

theorem isWs_iff {ws : List Chr} {c : Chr} : isWs ws c = true ↔ c ∈ ws := List.contains_iff_mem

theorem isWs_eq_false_iff {ws : List Chr} {c : Chr} : isWs ws c = false ↔ c ∉ ws := by
  rw [← isWs_iff, Bool.not_eq_true]

/-- Settles O9: the alphabet and the whitespace set hold scalar values only (rule R65). -/
theorem nonScalarCodesAreInvalidSymbols : Obligations.NonScalarCodesAreInvalidSymbols := by
  intro p c hc
  obtain ⟨⟨-, -, -, -, -, -, -, symScalar, wsScalar⟩, -⟩ := p.ok
  have notScalar : ¬ isScalar c = true := by rw [isScalar_iff]; omega
  have noValue : valueFor p.rom c = none :=
    (valueFor_eq_none_iff p).mpr fun h => notScalar (List.all_eq_true.mp symScalar c h)
  have notWs : isWs p.ws c = false := isWs_eq_false_iff.mpr fun h => notScalar (List.all_eq_true.mp wsScalar c h)
  exact ⟨noValue, notWs, (classify_eq_invalid_iff ..).mpr ⟨rfl, notWs, noValue⟩⟩

/-- U+3002 stands at one of the three OPEN addresses (rule R7 (c)). -/
theorem valueFor_fullStop (p : Params) :
    valueFor p.rom 0x3002 = some 3 ∨ valueFor p.rom 0x3002 = some 6 ∨ valueFor p.rom 0x3002 = some 7 := by
  obtain ⟨⟨-, -, fullStop, -⟩, -⟩ := p.ok
  simp only [valueFor_eq_some_iff]
  exact fullStop.imp Eq.symm (Or.imp Eq.symm Eq.symm)

/-- With the check on U+3002 does not stand at address 3 (rule R7 (e)). -/
theorem valueFor_fullStop_of_check (p : Params) (h : p.utf8Check = true) :
    valueFor p.rom 0x3002 = some 6 ∨ valueFor p.rom 0x3002 = some 7 := by
  obtain ⟨⟨-, -, -, -, notThree, -⟩, -⟩ := p.ok
  exact (valueFor_fullStop p).resolve_left fun h3 => notThree h ((valueFor_eq_some_iff p).mp h3)

/-- Settles O11: the fixed entries are the ROM's own, and the constraints of rules R6 and R7 place the three characters. -/
theorem knownAlphabetForEveryChoice : Obligations.KnownAlphabetForEveryChoice := by
  intro p
  obtain ⟨⟨-, -, -, noHiragana, -, spaceWs, hiraganaNotWs, -⟩, -⟩ := p.ok
  exact ⟨rfl, rfl, rfl, rfl, rfl, valueFor_fullStop p, valueFor_fullStop_of_check p,
    (classify_eq_invalid_iff ..).mpr ⟨rfl, hiraganaNotWs, (valueFor_eq_none_iff p).mpr noHiragana⟩,
    (classify_eq_whitespace_iff ..).mpr spaceWs⟩

theorem mem_codeRange {lo hi : Nat} {c : Chr} (h : hi < 2 ^ 21) : c ∈ codeRange lo hi ↔ lo ≤ c.toNat ∧ c.toNat ≤ hi := by
  rw [codeRange, List.mem_map]
  constructor
  · rintro ⟨k, hk, rfl⟩
    have hlt := List.mem_range.mp hk
    rw [BitVec.toNat_ofNat, Nat.mod_eq_of_lt (by omega)]
    omega
  · rintro ⟨hlo, hhi⟩
    refine ⟨c.toNat - lo, List.mem_range.mpr (by omega), ?_⟩
    rw [Nat.add_sub_cancel' hlo, BitVec.ofNat_toNat, BitVec.setWidth_eq]

/-- Settles O12: the list is two ranges and nine single code points. -/
theorem whitespaceAtResetIsTheDefault : Obligations.WhitespaceAtResetIsTheDefault := by
  intro c
  rw [isWs_iff]
  change c ∈ defaultWs ↔ _
  simp only [defaultWs, List.mem_append, mem_codeRange (show 0x000D < 2 ^ 21 by decide),
    mem_codeRange (show 0x200A < 2 ^ 21 by decide), List.mem_cons, List.not_mem_nil, or_false, or_assoc]

/-! ### The start of a machine with given parameters (rules R6, R7) -/

/-- What `RawParams.Ok` asks, on the eight addresses and the members of `WS`. -/
theorem rawParams_ok_iff (r : RawParams) :
    r.Ok ↔
      (∀ i < 8, ∀ j < 8, symbolFor r.rom i = symbolFor r.rom j → i = j) ∧ (∀ i < 8, symbolFor r.rom i ∉ r.ws) ∧
      (symbolFor r.rom 3 = 0x3002 ∨ symbolFor r.rom 6 = 0x3002 ∨ symbolFor r.rom 7 = 0x3002) ∧
      (∀ i < 8, symbolFor r.rom i ≠ 0x3042) ∧ (r.utf8Check = true → symbolFor r.rom 3 ≠ 0x3002) ∧
      0x0020#21 ∈ r.ws ∧ 0x3042#21 ∉ r.ws ∧
      (∀ i < 8, (symbolFor r.rom i).toNat < 0xD800 ∨
        (0xE000 ≤ (symbolFor r.rom i).toNat ∧ (symbolFor r.rom i).toNat < 0x110000)) ∧
      (∀ c ∈ r.ws, c.toNat < 0xD800 ∨ (0xE000 ≤ c.toNat ∧ c.toNat < 0x110000)) ∧ 1 ≤ r.nInst := by
  have notWs : (r.rom.toList.all fun c => !isWs r.ws c) = true ↔ ∀ i < 8, symbolFor r.rom i ∉ r.ws := by
    simp only [List.all_eq_true, Bool.not_eq_true', isWs_eq_false_iff, forall_mem_rom_iff]
  have fullStop : (0x3002#21 = r.rom[3] ∨ 0x3002#21 = r.rom[6] ∨ 0x3002#21 = r.rom[7]) ↔
      (symbolFor r.rom 3 = 0x3002 ∨ symbolFor r.rom 6 = 0x3002 ∨ symbolFor r.rom 7 = 0x3002) :=
    or_congr eq_comm (or_congr eq_comm eq_comm)
  have noHiragana : 0x3042#21 ∉ r.rom.toList ↔ ∀ i < 8, symbolFor r.rom i ≠ 0x3042 := by
    simp only [mem_rom_iff, not_exists, not_and]
    rfl
  have symScalar : r.rom.toList.all isScalar = true ↔ ∀ i < 8, (symbolFor r.rom i).toNat < 0xD800 ∨
      (0xE000 ≤ (symbolFor r.rom i).toNat ∧ (symbolFor r.rom i).toNat < 0x110000) := by
    simp only [List.all_eq_true, forall_mem_rom_iff, isScalar_iff]
  have wsScalar : r.ws.all isScalar = true ↔
      ∀ c ∈ r.ws, c.toNat < 0xD800 ∨ (0xE000 ≤ c.toNat ∧ c.toNat < 0x110000) := by
    simp only [List.all_eq_true, isScalar_iff]
  have notThree : (r.utf8Check = true → r.rom[3] ≠ 0x3002#21) ↔ (r.utf8Check = true → symbolFor r.rom 3 ≠ 0x3002) :=
    Iff.rfl
  rw [RawParams.Ok, AlphabetOk, rom_nodup_iff, notWs, fullStop, noHiragana, notThree, isWs_iff, isWs_eq_false_iff,
    symScalar, wsScalar]
  simp only [and_assoc]

/-- Every instance of a machine that has just started is the idle one. -/
theorem eq_powerOn_of_mem {p : Params} {m : Codec} (h : m ∈ (State.powerOn p).insts) : m = Codec.powerOn :=
  List.eq_of_mem_replicate h

/-- A machine that has just started is idle, with no message open and no move pending (rules R27, R130). -/
theorem powerOn_runOver (p : Params) : (State.powerOn p).runOver :=
  ⟨rfl, fun _ hm => eq_powerOn_of_mem hm ▸ ⟨⟨rfl, rfl⟩, ⟨rfl, rfl⟩, ⟨rfl, rfl, rfl, rfl, rfl⟩⟩⟩

/-- Settles O54: the start checks `RawParams.Ok`, which is the conjunction of the constraints. -/
theorem bootRefusesExactlyBadParameters : Obligations.BootRefusesExactlyBadParameters := by
  intro r sym good
  have ok_iff : r.Ok ↔ good := rawParams_ok_iff r
  obtain ⟨hok, hboot⟩ | ⟨hbad, hboot⟩ := State.boot_cases r
  · exact ⟨fun h => absurd (ok_iff.mp hok) h,
      fun _ => ⟨_, hboot, rfl, List.length_replicate, powerOn_runOver _⟩⟩
  · exact ⟨fun _ => hboot, fun h => absurd (ok_iff.mpr h) hbad⟩

end Sys2Proof.Machine
end

section
/-!
PROOFS. The encoder as a string of bits (spec file 41_encoder.md): the unit cuts values off the front of the bits that come in
and keeps the rest, so a message emits the values of the padded bit string of rule R70.
-/

namespace Sys2Proof.Machine

/-! ### Values and the bits they stand for (rules R31, R70) -/

/-- The bit string of some values (rule R31). -/
def valueString (vs : List Val3) : List Bool :=
  vs.flatMap valBits

@[simp] theorem valueString_nil : valueString [] = [] := rfl

theorem valueString_cons (v : Val3) (vs : List Val3) : valueString (v :: vs) = wordBits v ++ valueString vs := by
  rw [valueString, List.flatMap_cons, valBits_eq_wordBits, ← valueString]

theorem valueString_singleton (v : Val3) : valueString [v] = wordBits v :=
  (valueString_cons v []).trans (List.append_nil _)

theorem valueString_append (vs ws : List Val3) : valueString (vs ++ ws) = valueString vs ++ valueString ws :=
  List.flatMap_append

theorem valueString_length (vs : List Val3) : (valueString vs).length = 3 * vs.length := by
  induction vs with
  | nil => rfl
  | cons v vs ih =>
    rw [valueString_cons, List.length_append, ih, wordBits_length, List.length_cons]
    omega

/-- Cutting the bit string of some values, whatever follows it, gives the values back. -/
theorem groups_valueString_append (vs : List Val3) (rest : List Bool) :
    (List.range vs.length).map (fun g => bitsFrom (valueString vs ++ rest) (3 * g) 3) = vs.map BitVec.toNat := by
  induction vs with
  | nil => rfl
  | cons v vs ih =>
    have hd : bitsFrom (valueString (v :: vs) ++ rest) 0 3 = v.toNat := by
      rw [valueString_cons, List.append_assoc, bitsFrom_wordBits]
    have tl (g : Nat) : bitsFrom (valueString (v :: vs) ++ rest) (3 * (g + 1)) 3 =
        bitsFrom (valueString vs ++ rest) (3 * g) 3 := by
      rw [valueString_cons, List.append_assoc, Nat.mul_succ, Nat.add_comm]
      exact bitsFrom_append (wordBits v) _ _ _
    rw [List.length_cons, List.range_succ_eq_map, List.map_cons, List.map_map, Nat.mul_zero, hd, List.map_cons]
    simp only [Function.comp_def, Nat.succ_eq_add_one, tl]
    rw [ih]

theorem paddedBits_length (bytes : List Byte) : (paddedBits bytes).length = 3 * symbolCount bytes.length := by
  rw [paddedBits, List.length_append, bitString_length, List.length_replicate, symbolCount]
  omega

/-- The groups of rule R70 are the values that the padded bit string is made of. -/
theorem groupValues_eq {bytes : List Byte} {vs : List Val3} (h : valueString vs = paddedBits bytes) :
    groupValues bytes = vs.map BitVec.toNat := by
  have hlen : vs.length = symbolCount bytes.length := by
    have hl := congrArg List.length h
    rw [valueString_length, paddedBits_length] at hl
    omega
  rw [groupValues, ← hlen, ← h, ← groups_valueString_append vs [], List.append_nil]

/-- The symbols of some values. -/
def symbolsOf (rom : Rom) (vs : List Val3) : List Chr :=
  vs.map fun v => symbolFor rom v.toNat

theorem symbolsOf_append (rom : Rom) (vs ws : List Val3) : symbolsOf rom (vs ++ ws) = symbolsOf rom vs ++ symbolsOf rom ws :=
  List.map_append

theorem encodeStream_eq {bytes : List Byte} {vs : List Val3} (rom : Rom) (h : valueString vs = paddedBits bytes) :
    encodeStream rom bytes = symbolsOf rom vs := by
  rw [encodeStream, groupValues_eq h, List.map_map]
  rfl

/-! ### The commands of `ENC` on its bits -/

/-- The residual bits of the unit (rules R14, R15). -/
def EncUnit.residual (u : EncUnit) : List Bool :=
  wordBits (u.acc.extractLsb' 0 u.cnt.toNat)

theorem EncUnit.residual_length (u : EncUnit) : u.residual.length = u.cnt.toNat := wordBits_length _

theorem EncUnit.residual_of_cnt_zero {u : EncUnit} (h : u.cnt = 0) : u.residual = [] :=
  List.length_eq_zero_iff.mp (by rw [EncUnit.residual_length, h]; rfl)

/-- The unit goes from `u` to `e`: of the bits `coming` in after the residual ones it cuts off the values `vs` and emits their
symbols. -/
def EncUnit.Emits (rom : Rom) (u : EncUnit) (coming : List Bool) (vs : List Val3) (e : EncUnit) : Prop :=
  e.out = u.out ++ (symbolsOf rom vs).map eoSymbol ∧ u.residual ++ coming = valueString vs ++ e.residual

/-- A word is the groups of three bits from its top, and what is left. -/
theorem wordBits_groups {w : Nat} (x : BitVec w) (n : Nat) (h : 3 * n ≤ w) :
    wordBits x = valueString ((List.range n).map fun g => x.extractLsb' (w - 3 * g - 3) 3) ++
      wordBits (x.extractLsb' 0 (w - 3 * n)) := by
  induction n with
  | zero => simp
  | succ n ih =>
    have next : wordBits (x.extractLsb' 0 (w - 3 * n)) =
        wordBits (x.extractLsb' (w - 3 * n - 3) 3) ++ wordBits (x.extractLsb' 0 (w - 3 * (n + 1))) := by
      rw [wordBits_split _ (by omega : w - 3 * n = 3 + (w - 3 * (n + 1))), BitVec.extractLsb'_extractLsb'_of_le (by omega),
        BitVec.extractLsb'_extractLsb'_of_le (by omega),
        (by omega : w - 3 * n - 3 = w - 3 * (n + 1))]
    rw [ih (by omega), next, List.range_succ, List.map_append, valueString_append, List.map_singleton,
      valueString_singleton, List.append_assoc]

/-- Keeping at most 2 bits in `E.acc` loses none of them. -/
theorem EncUnit.residual_mk {r : Nat} (x : BitVec r) (hr : r ≤ 2) (out : List EO) :
    EncUnit.residual ⟨x.setWidth 2, BitVec.ofNat 2 r, out⟩ = wordBits x := by
  have hn : (BitVec.ofNat 2 r).toNat = r := by rw [BitVec.toNat_ofNat, Nat.mod_eq_of_lt (by omega)]
  rw [EncUnit.residual, hn, ← BitVec.setWidth_eq_extractLsb' hr, BitVec.setWidth_setWidth (by omega), BitVec.setWidth_eq]

/-- `EBYTE` cuts off the complete groups of the residual bits and the byte (rule R71). -/
theorem EncUnit.takeByte_emits (rom : Rom) (d : Byte) (u : EncUnit) :
    ∃ vs, u.Emits rom (wordBits d) vs (u.takeByte rom d) := by
  generalize hk : u.cnt.toNat = k
  rw [EncUnit.takeByte_eq rom d u hk]
  refine ⟨(List.range ((k + 8) / 3)).map fun g => (u.acc.extractLsb' 0 k ++ d).extractLsb' (k + 8 - 3 * g - 3) 3, ?_, ?_⟩
  · simp [symbolsOf, Function.comp_def]
  · rw [EncUnit.residual_mk ((u.acc.extractLsb' 0 k ++ d).extractLsb' 0 ((k + 8) % 3)) (by omega),
      EncUnit.residual, hk, ← wordBits_append, wordBits_groups (u.acc.extractLsb' 0 k ++ d) ((k + 8) / 3) (by omega),
      (by omega : k + 8 - 3 * ((k + 8) / 3) = (k + 8) % 3)]

/-- What is emitted for one part of the bits, then for the next. -/
theorem EncUnit.Emits.trans {rom : Rom} {u e f : EncUnit} {a b : List Bool} {vs ws : List Val3}
    (h : u.Emits rom a vs e) (h' : e.Emits rom b ws f) : u.Emits rom (a ++ b) (vs ++ ws) f := by
  obtain ⟨out, bits⟩ := h
  obtain ⟨out', bits'⟩ := h'
  refine ⟨?_, ?_⟩
  · rw [out', out, symbolsOf_append, List.map_append, List.append_assoc]
  · rw [← List.append_assoc, bits, List.append_assoc, bits', valueString_append, List.append_assoc]

theorem EncUnit.takeBytes_emits (rom : Rom) (bytes : List Byte) (u : EncUnit) :
    ∃ vs, u.Emits rom (bitString bytes) vs (u.takeBytes rom bytes) := by
  induction bytes generalizing u with
  | nil => exact ⟨[], by simp [symbolsOf], List.append_nil _⟩
  | cons d bytes ih =>
    obtain ⟨vs, first⟩ := u.takeByte_emits rom d
    obtain ⟨ws, others⟩ := ih (u.takeByte rom d)
    exact ⟨vs ++ ws, bitString_cons d bytes ▸ first.trans others⟩

theorem wordBits_zero (n : Nat) : wordBits 0#n = List.replicate n false := by
  exact List.eq_replicate_iff.mpr ⟨wordBits_length _, by simp [wordBits]⟩

/-- The last value of rule R73 is the residual bits, then zeros. -/
theorem EncUnit.wordBits_padGroup {u : EncUnit} (h : u.cnt = 1 ∨ u.cnt = 2) :
    wordBits u.padGroup = u.residual ++ List.replicate (3 - u.cnt.toNat) false := by
  rcases h with h | h
  · rw [EncUnit.padGroup_of_cnt_one h, EncUnit.residual, h, ← wordBits_zero, ← wordBits_append]
    rfl
  · have whole : u.acc.extractLsb' 0 (2 : BitVec 2).toNat = u.acc := BitVec.extractLsb'_eq_self
    rw [EncUnit.padGroup_of_cnt_two h, EncUnit.residual, h, whole, ← wordBits_zero, ← wordBits_append]
    rfl

/-- `EEND` takes zero bits in up to a whole number of groups, emits the value, and closes the message (rule R73). -/
theorem EncUnit.finish_emits (rom : Rom) {u : EncUnit} (hc : u.cnt.toNat ≤ 2) :
    ∃ vs, u.finish rom = EncUnit.idle (u.out ++ (symbolsOf rom vs).map eoSymbol ++ [eoEnd]) ∧
      u.residual ++ List.replicate ((3 - u.cnt.toNat) % 3) false = valueString vs := by
  by_cases h0 : u.cnt = 0
  · exact ⟨[], by simp [EncUnit.finish_of_cnt_zero rom h0, symbolsOf], by simp [EncUnit.residual_of_cnt_zero h0, h0]⟩
  · have hcases : ∀ c : BitVec 2, c ≠ 0 → c.toNat ≤ 2 → (c = 1 ∨ c = 2) ∧ (3 - c.toNat) % 3 = 3 - c.toNat := by decide
    obtain ⟨hcnt, hmod⟩ := hcases u.cnt h0 hc
    refine ⟨[u.padGroup], by simp [EncUnit.finish_of_cnt_ne_zero rom h0, symbolsOf], ?_⟩
    rw [valueString_singleton, EncUnit.wordBits_padGroup hcnt, hmod]

/-- A message of an idle unit emits the values of the padded bit string, then the end beat. -/
theorem EncUnit.message_emits (rom : Rom) (bytes : List Byte) {u : EncUnit} (h : u.cnt = 0) :
    ∃ vs, valueString vs = paddedBits bytes ∧
      (u.takeBytes rom bytes).finish rom = EncUnit.idle (u.out ++ (symbolsOf rom vs).map eoSymbol ++ [eoEnd]) := by
  have h0 : u.cnt.toNat = 0 := by rw [h]; rfl
  have hcnt := EncUnit.takeBytes_cnt rom bytes (u := u) (by omega)
  obtain ⟨vs, out, bits⟩ := u.takeBytes_emits rom bytes
  obtain ⟨ws, hfinish, last⟩ := EncUnit.finish_emits rom (u := u.takeBytes rom bytes) (by omega)
  have pad : (3 - (u.takeBytes rom bytes).cnt.toNat) % 3 = 3 * symbolCount bytes.length - 8 * bytes.length := by
    unfold symbolCount
    omega
  refine ⟨vs ++ ws, ?_, ?_⟩
  · rw [valueString_append, ← last, ← List.append_assoc, ← bits, EncUnit.residual_of_cnt_zero h, pad, paddedBits,
      List.nil_append]
  · rw [hfinish, out, symbolsOf_append, List.map_append, ← List.append_assoc u.out]

/-- The padded bit string of rule R70 is a whole number of values. -/
theorem exists_valueString (bytes : List Byte) : ∃ vs, valueString vs = paddedBits bytes := by
  obtain ⟨vs, bits, -⟩ := EncUnit.message_emits (romOf 0 0 0) bytes (u := EncUnit.idle []) rfl
  exact ⟨vs, bits⟩

/-- A message of an idle unit emits `encode` of its bytes, then the end beat (rule R76). -/
theorem EncUnit.finish_takeBytes (rom : Rom) (bytes : List Byte) {u : EncUnit} (h : u.cnt = 0) :
    (u.takeBytes rom bytes).finish rom =
      EncUnit.idle (u.out ++ (encodeStream rom bytes).map eoSymbol ++ [eoEnd]) := by
  obtain ⟨vs, bits, hfinish⟩ := EncUnit.message_emits rom bytes h
  rw [hfinish, encodeStream_eq rom bits]

/-- Settles O19: the run of the message is its bytes and its end taken by the unit, which cuts the padded bit string into the
values that `encode` looks up. -/
theorem encoderMessageEqualsReference : Obligations.EncoderMessageEqualsReference := by
  intro s k m bytes rest hm ⟨_, hcnt⟩ hhost
  rw [run_encodeMessage bytes hm (by rw [hcnt]; decide) hhost, EncUnit.finish_takeBytes _ _ hcnt]
  rfl

/-! ### The end of the bit string, and injectivity (rules R74, R80) -/

/-- Zero bits after the end of the bits double the number for each of them. -/
theorem bitsFrom_append_zeros (bits : List Bool) {start k : Nat} (j : Nat) (h : start + k = bits.length) :
    bitsFrom (bits ++ List.replicate j false) start (k + j) = 2 ^ j * bitsFrom bits start k := by
  have data : (List.range k).map (fun i => ((bits ++ List.replicate j false).getD (start + i) false).toNat *
      2 ^ (k + j - 1 - i)) =
      (List.range k).map fun i => 2 ^ j * ((bits.getD (start + i) false).toNat * 2 ^ (k - 1 - i)) := by
    refine List.map_congr_left fun i hi => ?_
    have hlt := List.mem_range.mp hi
    rw [List.getD_append _ _ _ _ (by omega), (by omega : k + j - 1 - i = j + (k - 1 - i)), pow_add]
    ring
  have zeros : (List.range j).map ((fun i => ((bits ++ List.replicate j false).getD (start + i) false).toNat *
      2 ^ (k + j - 1 - i)) ∘ (k + ·)) = List.replicate j 0 := by
    refine List.eq_replicate_iff.mpr ⟨by simp, fun x hx => ?_⟩
    obtain ⟨i, -, rfl⟩ := List.mem_map.mp hx
    rw [Function.comp_apply, ← Nat.add_assoc, h, List.getD_append_right _ _ _ _ (by omega)]
    simp
  rw [bitsFrom, List.range_add, List.map_append, List.map_map, zeros, data, List.sum_append, List.sum_map_mul_left, bitsFrom]
  simp

/-- The last value of a message whose last group holds `k` data bits. -/
theorem groupValues_getLast? {bytes : List Byte} {k : Nat} (hk : k < 3) (hpos : 0 < k)
    (h : 3 * symbolCount bytes.length = 8 * bytes.length + (3 - k)) :
    (groupValues bytes).getLast? = some (2 ^ (3 - k) * bitsFrom (bitString bytes) (8 * bytes.length - k) k) := by
  have hlen := bitString_length bytes
  have hcount : symbolCount bytes.length = (symbolCount bytes.length - 1) + 1 := by omega
  have last := bitsFrom_append_zeros (bitString bytes) (start := 8 * bytes.length - k) (k := k) (3 - k) (by omega)
  rw [groupValues, hcount, List.range_succ, List.map_append, List.map_singleton, List.getLast?_concat, paddedBits,
    (by omega : 3 * symbolCount bytes.length - 8 * bytes.length = 3 - k),
    (by omega : 3 * (symbolCount bytes.length - 1) = 8 * bytes.length - k), ← last, Nat.add_sub_cancel' hk.le]

/-- Settles O21: the last group is the last two bits or the last bit of the stream, then zeros. -/
theorem lastSymbolIsPaddedWithZeros : Obligations.LastSymbolIsPaddedWithZeros := fun bytes =>
  ⟨fun h => groupValues_getLast? (k := 2) (by decide) (by decide) (by unfold symbolCount; omega),
    fun h => groupValues_getLast? (k := 1) (by decide) (by decide) (by unfold symbolCount; omega)⟩

theorem symbolsOf_injective (p : Params) : Function.Injective (symbolsOf p.rom) :=
  List.map_injective_iff.mpr fun _ _ => symbolFor_val_inj p

/-- The bytes can be cut back from the padded bit string. -/
theorem cutBytes_paddedBits (bytes : List Byte) : cutBytes (paddedBits bytes) bytes.length = bytes :=
  cutBytes_bitString_append bytes _

/-- Settles O22: the symbols determine the values and so the padded bit string, whose length determines the number of bytes. -/
theorem encodeIsInjective : Obligations.EncodeIsInjective := by
  intro p b b' h
  obtain ⟨vs, hvs⟩ := exists_valueString b
  obtain ⟨vs', hvs'⟩ := exists_valueString b'
  rw [encodeStream_eq _ hvs, encodeStream_eq _ hvs'] at h
  have bits : paddedBits b = paddedBits b' := by rw [← hvs, ← hvs', symbolsOf_injective p h]
  have hlen : b.length = b'.length := by
    have hl := congrArg List.length bits
    rw [paddedBits_length, paddedBits_length] at hl
    unfold symbolCount at hl
    omega
  rw [← cutBytes_paddedBits b, bits, hlen, cutBytes_paddedBits]

end Sys2Proof.Machine
end

section
/-!
PROOFS. Both directions together (spec 42_decoder.md section 5): `decode` of the symbols of some values, the round trip, and
streams that `encode` gives back.
-/

namespace Sys2Proof.Machine

/-! ### `decode` of the symbols of some values (rule R81) -/

section
variable (p : Params) (vs : List Val3)

theorem symbolsOf_length (rom : Rom) : (symbolsOf rom vs).length = vs.length := List.length_map ..

/-- The values of symbols are those they were made of. -/
theorem filterMap_valueFor_symbolsOf : (symbolsOf p.rom vs).filterMap (valueFor p.rom) = vs := by
  simp [symbolsOf, List.filterMap_map, valueFor_symbolFor]

theorem stripWs_symbolsOf : stripWs p.ws (symbolsOf p.rom vs) = symbolsOf p.rom vs := by
  refine List.filter_eq_self.mpr fun c hc => ?_
  obtain ⟨v, -, rfl⟩ := List.mem_map.mp hc
  simp [isWs_eq_false_of_valueFor p (valueFor_symbolFor p v)]

theorem valueFor_isSome_of_mem_symbolsOf {c : Chr} (h : c ∈ symbolsOf p.rom vs) : (valueFor p.rom c).isSome = true := by
  obtain ⟨v, -, rfl⟩ := List.mem_map.mp h
  simp [valueFor_symbolFor]

theorem firstInvalid_symbolsOf : firstInvalid p.rom (symbolsOf p.rom vs) = none :=
  List.find?_eq_none.mpr fun c hc => by simp [Option.isSome_iff_ne_none.mp (valueFor_isSome_of_mem_symbolsOf p vs hc)]

theorem acceptedSymbols_symbolsOf : acceptedSymbols p (symbolsOf p.rom vs) = vs.length := by
  rw [acceptedSymbols, stripWs_symbolsOf, List.takeWhile_eq_self_iff.mpr fun c => valueFor_isSome_of_mem_symbolsOf p vs,
    symbolsOf_length]

theorem decodeStream_symbolsOf :
    decodeStream p (symbolsOf p.rom vs) =
      if 3 * vs.length % 8 ≥ 3 then .unexpectedEnd
      else if p.utf8Check && !utf8Ok (cutBytes (valueString vs) (3 * vs.length / 8)) then .invalidUtf8
      else .ok (cutBytes (valueString vs) (3 * vs.length / 8)) := by
  have bits : valueBits p.rom (symbolsOf p.rom vs) = valueString vs := by
    rw [valueBits, filterMap_valueFor_symbolsOf, valueString]
  simp only [decodeStream, stripWs_symbolsOf, firstInvalid_symbolsOf, bits, symbolsOf_length]

end

/-! ### The round trip (rule R96) -/

/-- `ceil(8n/3)` symbols hold `n` bytes and less than a group more. -/
theorem symbolCount_bits (n : Nat) : 3 * symbolCount n / 8 = n ∧ 3 * symbolCount n % 8 < 3 := by
  have rounded : ∃ r ≤ 2, 3 * symbolCount n = 8 * n + r := ⟨3 * symbolCount n - 8 * n, by unfold symbolCount; omega⟩
  obtain ⟨r, hr, hcount⟩ := rounded
  rw [hcount]
  clear hcount
  omega

theorem decodeStream_encodeStream (p : Params) (bytes : List Byte) :
    decodeStream p (encodeStream p.rom bytes) =
      if p.utf8Check && !utf8Ok bytes then .invalidUtf8 else .ok bytes := by
  obtain ⟨vs, hvs⟩ := exists_valueString bytes
  obtain ⟨hdiv, hmod⟩ := symbolCount_bits bytes.length
  have hlen : vs.length = symbolCount bytes.length := by
    have hl := congrArg List.length hvs
    rw [valueString_length, paddedBits_length] at hl
    omega
  rw [encodeStream_eq _ hvs, decodeStream_symbolsOf, hlen, if_neg (Nat.not_le.mpr hmod), hdiv, hvs, cutBytes_paddedBits]

theorem acceptedSymbols_encodeStream (p : Params) (bytes : List Byte) :
    acceptedSymbols p (encodeStream p.rom bytes) = symbolCount bytes.length := by
  obtain ⟨vs, hvs⟩ := exists_valueString bytes
  rw [encodeStream_eq _ hvs, acceptedSymbols_symbolsOf, ← symbolsOf_length vs p.rom, ← encodeStream_eq _ hvs, encodeStream,
    groupValues, List.length_map, List.length_map, List.length_range]

theorem fitsBuffer_encodeStream {p : Params} {bytes : List Byte}
    (h : ∀ cap, p.obufCap = some cap → bytes.length ≤ cap) : fitsBuffer p (encodeStream p.rom bytes) := fun cap hcap => by
  rw [acceptedSymbols_encodeStream, (symbolCount_bits _).1]
  exact h cap hcap

/-- Settles O40: the message computes `decode`, and `decode` of `encode` cuts the bytes back from the padded bit string, fewer
than three bits being left. -/
theorem roundTrip : Obligations.RoundTrip := by
  intro s k m bytes rest hm hidle hcap hhost
  rw [decoderMessageEqualsReference s k m _ rest hm hidle (fitsBuffer_encodeStream hcap) hhost, decodeStream_encodeStream]
  by_cases hbad : s.cfg.utf8Check = true ∧ utf8Ok bytes = false
  · rw [if_pos (by simpa using hbad), if_pos hbad]
    rfl
  · rw [if_neg (by simpa using hbad), if_neg hbad, resultBeats_ok]

/-! ### Strictly canonical streams (rule R97) -/

/-- Every bit string is that of a word. -/
theorem exists_wordBits (bits : List Bool) : ∃ x : BitVec bits.length, wordBits x = bits :=
  ⟨BitVec.ofBoolListBE bits, List.ext_getElem (by simp) fun i hi hi' => by simp [wordBits, hi']⟩

/-- Every string of whole bytes is that of some bytes. -/
theorem exists_bitString {n : Nat} {bits : List Bool} (h : bits.length = 8 * n) :
    ∃ bytes, bytes.length = n ∧ bitString bytes = bits := by
  induction n generalizing bits with
  | zero => exact ⟨[], rfl, (List.length_eq_zero_iff.mp h).symm⟩
  | succ n ih =>
    obtain ⟨bytes, hlen, hbytes⟩ := ih (bits := bits.drop 8) (by rw [List.length_drop]; omega)
    obtain ⟨x, hx⟩ := exists_wordBits (bits.take 8)
    have h8 : (bits.take 8).length = 8 := by rw [List.length_take]; omega
    revert x
    rw [h8]
    intro b hb
    exact ⟨b :: bytes, by rw [List.length_cons, hlen], by rw [bitString_cons, hb, hbytes, List.take_append_drop]⟩

theorem exists_symbolsOf {p : Params} {chars : List Chr} (h : ∀ c ∈ chars, ∃ v, classify p.rom p.ws c = .symbol v) :
    ∃ vs, chars = symbolsOf p.rom vs := by
  induction chars with
  | nil => exact ⟨[], rfl⟩
  | cons c chars ih =>
    obtain ⟨v, hv⟩ := h c List.mem_cons_self
    obtain ⟨vs, rfl⟩ := ih fun d hd => h d (List.mem_cons_of_mem c hd)
    obtain ⟨-, hvalue⟩ := (classify_eq_symbol_iff ..).mp hv
    exact ⟨v :: vs, by rw [← symbolFor_of_valueFor hvalue]; rfl⟩

/-- A strictly canonical stream is an encoding: its bits are those of whole bytes, then zeros up to a whole number of groups. -/
theorem StrictlyCanonical.exists_encodeStream {p : Params} {chars : List Chr} (h : StrictlyCanonical p chars) :
    ∃ bytes, encodeStream p.rom bytes = chars := by
  obtain ⟨symbols, legal, zeros⟩ := h
  obtain ⟨vs, rfl⟩ := exists_symbolsOf symbols
  rw [symbolsOf_length] at legal zeros
  have bits : valueBits p.rom (symbolsOf p.rom vs) = valueString vs := by
    rw [valueBits, filterMap_valueFor_symbolsOf, valueString]
  rw [bits] at zeros
  have hlen := valueString_length vs
  obtain ⟨bytes, hbytes, hstring⟩ :=
    exists_bitString (n := 3 * vs.length / 8) (bits := (valueString vs).take (8 * (3 * vs.length / 8)))
      (by rw [List.length_take]; omega)
  have rest : (valueString vs).drop (8 * (3 * vs.length / 8)) =
      List.replicate (3 * symbolCount bytes.length - 8 * bytes.length) false := by
    refine List.eq_replicate_iff.mpr ⟨by rw [List.length_drop, hbytes]; unfold symbolCount; omega, fun b hb => ?_⟩
    obtain ⟨i, hi, rfl⟩ := List.mem_iff_getElem.mp hb
    have hz := zeros (8 * (3 * vs.length / 8) + i) (Nat.le_add_right ..)
    rw [List.getElem_drop]
    rwa [List.getD_eq_getElem _ _ (by rw [List.length_drop] at hi; omega)] at hz
  exact ⟨bytes, encodeStream_eq _ (by rw [paddedBits, hstring, ← rest, List.take_append_drop])⟩

/-- Three symbols make one byte, and one bit is dropped. -/
theorem decodeStream_three (p : Params) {u v w : Val3} {b : Byte} (hb : cutBytes (valueString [u, v, w]) 1 = [b]) :
    decodeStream p (symbolsOf p.rom [u, v, w]) = if p.utf8Check && !utf8Ok [b] then .invalidUtf8 else .ok [b] := by
  simpa [hb] using decodeStream_symbolsOf p [u, v, w]

/-- Settles O41: a strictly canonical stream is an encoding, so the round trip applies; the stream 愛楽し has the values 2, 0, 5
in every alphabet. -/
theorem decodeThenEncodeOnCanonicalStreams : Obligations.DecodeThenEncodeOnCanonicalStreams := by
  refine ⟨fun p chars h => ?_, fun p => ⟨?_, encodeStream_eq (vs := [2, 0, 4]) _ (by decide)⟩⟩
  · obtain ⟨bytes, rfl⟩ := h.exists_encodeStream
    rw [decodeStream_encodeStream]
    split
    next hbad => exact .inl ⟨(Bool.and_eq_true_iff.mp hbad).1, rfl⟩
    next => exact .inr ⟨bytes, rfl, rfl⟩
  · have passes : utf8Ok [0x42] = true := by decide
    refine (decodeStream_three p (u := 2) (v := 0) (w := 5) (b := 0x42) (by decide)).trans (if_neg ?_)
    rw [passes, Bool.not_true, Bool.and_false]
    exact Bool.false_ne_true

/-- A character three times, by its value and the byte that this makes. -/
theorem decodeStream_replicate_three {p : Params} {c : Chr} {v : Val3} {b : Byte} (hc : symbolFor p.rom v.toNat = c)
    (hb : cutBytes (valueString [v, v, v]) 1 = [b]) :
    (p.utf8Check = true → utf8Ok [b] = false → decodeStream p [c, c, c] = .invalidUtf8) ∧
    (p.utf8Check = false → decodeStream p [c, c, c] = .ok [b]) := by
  subst hc
  have result := decodeStream_three p hb
  exact ⟨fun check rejects => result.trans (if_pos (by rw [check, rejects]; rfl)),
    fun off => result.trans (if_neg (by rw [off]; exact Bool.false_ne_true))⟩

/-- Settles O44: U+3002 has the value 3, 6 or 7, so that the stream is the byte 0x6D, 0xDB or 0xFF; the check excludes the value 3
and rejects the other two bytes. -/
theorem threeFullStopsFailWithTheCheck : Obligations.ThreeFullStopsFailWithTheCheck := by
  refine ⟨fun p => ⟨fun check => ?_, fun off => ⟨fun h => ?_, fun h => ?_, fun h => ?_⟩⟩, by decide, by decide, by decide⟩
  · obtain h | h := valueFor_fullStop_of_check p check
    · exact (decodeStream_replicate_three (b := 0xDB) (symbolFor_of_valueFor h) (by decide)).1 check (by decide)
    · exact (decodeStream_replicate_three (b := 0xFF) (symbolFor_of_valueFor h) (by decide)).1 check (by decide)
  · exact (decodeStream_replicate_three (v := 3) h (by decide)).2 off
  · exact (decodeStream_replicate_three (v := 6) h (by decide)).2 off
  · exact (decodeStream_replicate_three (v := 7) h (by decide)).2 off

end Sys2Proof.Machine
end

section
/-!
PROOFS. A step is the step of one unit of one instance (spec rules R13, R41, R114): what each unit does with a command and with
the host's other acts, and from it the frames of commands and steps, and the order of independent moves.
-/

namespace Sys2Proof.Machine

/-! ### Outcomes -/

/-- The outcome of a part of the machine as the outcome of the whole. -/
def mapNext {α β : Type} (f : α → β) : UnitOutcome α → UnitOutcome β
  | .next a => .next (f a)
  | .fault r => .fault r
  | .refused r => .refused r

@[simp] theorem mapNext_next {α β : Type} (f : α → β) (a : α) : mapNext f (.next a) = .next (f a) := rfl
@[simp] theorem mapNext_refused {α β : Type} (f : α → β) (r : Refusal) : mapNext f (.refused r) = .refused r := rfl

theorem mapNext_mapNext {α β γ : Type} (g : β → γ) (f : α → β) (o : UnitOutcome α) :
    mapNext g (mapNext f o) = mapNext (fun a => g (f a)) o := by cases o <;> rfl

theorem mapNext_eq_next {α β : Type} {f : α → β} {o : UnitOutcome α} {b : β} :
    mapNext f o = .next b ↔ ∃ a, o = .next a ∧ b = f a := by cases o <;> simp [mapNext, eq_comm]

theorem State.onEnc_eq_mapNext {s : State} {m : Codec} (f : EncUnit → UnitOutcome EncUnit) (h : s.codec? = some m) :
    s.onEnc f = mapNext s.setEnc (f m.enc) := by
  simp only [State.onEnc, h]
  cases f m.enc <;> rfl

theorem State.onDec_eq_mapNext {s : State} {m : Codec} (f : DecUnit → UnitOutcome DecUnit) (h : s.codec? = some m) :
    s.onDec f = mapNext s.setDec (f m.dec) := by
  simp only [State.onDec, h]
  cases f m.dec <;> rfl

/-! ### What a unit does with a command, and with an act of the host -/

/-- A command on `ENC`; commands of the other unit leave it alone. -/
def EncUnit.exec (p : Params) (i : Instr) (u : EncUnit) : UnitOutcome EncUnit :=
  match i with
  | .ebyte d => u.guarded (EncUnit.takeByte p.rom d)
  | .eend => u.guarded (EncUnit.finish p.rom)
  | .dchar _ => .next u
  | .dend => .next u

/-- A command on `DEC`; commands of the other unit leave it alone. -/
def DecUnit.exec (p : Params) (i : Instr) (u : DecUnit) : UnitOutcome DecUnit :=
  match i with
  | .ebyte _ => .next u
  | .eend => .next u
  | .dchar c => if u.overflows p c then .refused .obufFull else .next (u.takeChar p c)
  | .dend => .next (u.finish p)

/-- An act of the host on `ENC`. -/
def EncUnit.act (p : Params) (a : HostAct) (u : EncUnit) : UnitOutcome EncUnit :=
  match a with
  | .beat b => u.exec p (decodeBeat b)
  | .reset _ => .next u.toIdle
  | .read _ => .next u

/-- An act of the host on `DEC`. -/
def DecUnit.act (p : Params) (a : HostAct) (u : DecUnit) : UnitOutcome DecUnit :=
  match a with
  | .beat b => u.exec p (decodeBeat b)
  | .reset _ => .next u.toIdle
  | .read _ => .next u

theorem exec_of_enc {i : Instr} (s : State) (h : i.unit = .enc) : exec i s = s.onEnc (EncUnit.exec s.cfg i) := by
  cases i with
  | ebyte d => rfl
  | eend => rfl
  | dchar c => cases h
  | dend => cases h

theorem exec_of_dec {i : Instr} (s : State) (h : i.unit = .dec) : exec i s = s.onDec (DecUnit.exec s.cfg i) := by
  cases i with
  | ebyte d => cases h
  | eend => cases h
  | dchar c => rfl
  | dend => rfl

theorem runAct_of_enc {a : HostAct} (s : State) (h : a.unit = .enc) : runAct a s = s.onEnc (EncUnit.act s.cfg a) := by
  cases a with
  | beat b => exact exec_of_enc s ((decodeBeat_unit b).trans h)
  | reset u => obtain rfl : u = .enc := h; rfl
  | read u => obtain rfl : u = .enc := h; rfl

theorem runAct_of_dec {a : HostAct} (s : State) (h : a.unit = .dec) : runAct a s = s.onDec (DecUnit.act s.cfg a) := by
  cases a with
  | beat b => exact exec_of_dec s ((decodeBeat_unit b).trans h)
  | reset u => obtain rfl : u = .dec := h; rfl
  | read u => obtain rfl : u = .dec := h; rfl

/-- Everything a command of `ENC` can answer: the counter is legal and the command runs, or the guard refuses it. -/
theorem EncUnit.exec_cases (p : Params) {i : Instr} (u : EncUnit) (h : i.unit = .enc) :
    (u.cnt = 3 ∧ u.exec p i = .refused .encCounterIllegal) ∨
    (u.cnt ≠ 3 ∧ ((∃ d, i = .ebyte d ∧ u.exec p i = .next (u.takeByte p.rom d)) ∨
      (i = .eend ∧ u.exec p i = .next (u.finish p.rom)))) := by
  by_cases hc : u.cnt = 3
  · refine .inl ⟨hc, ?_⟩
    cases i with
    | ebyte d => exact EncUnit.guarded_refused hc
    | eend => exact EncUnit.guarded_refused hc
    | dchar c => cases h
    | dend => cases h
  · refine .inr ⟨hc, ?_⟩
    cases i with
    | ebyte d => exact .inl ⟨d, rfl, EncUnit.guarded_next hc⟩
    | eend => exact .inr ⟨rfl, EncUnit.guarded_next hc⟩
    | dchar c => cases h
    | dend => cases h

/-- Everything a command of `DEC` can answer. -/
theorem DecUnit.exec_cases (p : Params) {i : Instr} (u : DecUnit) (h : i.unit = .dec) :
    (∃ c, i = .dchar c ∧ u.overflows p c = true ∧ u.exec p i = .refused .obufFull) ∨
    (∃ c, i = .dchar c ∧ u.overflows p c = false ∧ u.exec p i = .next (u.takeChar p c)) ∨
    (i = .dend ∧ u.exec p i = .next (u.finish p)) := by
  cases i with
  | ebyte d => cases h
  | eend => cases h
  | dchar c =>
    cases ho : u.overflows p c with
    | true => exact .inl ⟨c, rfl, ho, if_pos ho⟩
    | false => exact .inr (.inl ⟨c, rfl, ho, by simp [DecUnit.exec, ho]⟩)
  | dend => exact .inr (.inr ⟨rfl, rfl⟩)

/-! ### Frames of the commands -/

theorem EncUnit.takeByte_out_appends (rom : Rom) (d : Byte) (u : EncUnit) : ∃ new, (u.takeByte rom d).out = u.out ++ new :=
  have ⟨beats, hout, _⟩ := u.takeByte_appends rom d
  ⟨beats, hout⟩

theorem EncUnit.finish_out_appends (rom : Rom) (u : EncUnit) : ∃ new, (u.finish rom).out = u.out ++ new := by
  obtain ⟨out, hout, beats, rfl, -⟩ := u.finish_appends rom
  exact ⟨beats ++ [eoEnd], by rw [hout, List.append_assoc]⟩

/-- Commands of `ENC` take no beat back. -/
theorem EncUnit.exec_out_appends {p : Params} {i : Instr} {u e : EncUnit} (hi : i.unit = .enc) (h : u.exec p i = .next e) :
    ∃ new, e.out = u.out ++ new := by
  obtain ⟨-, hx⟩ | ⟨-, ⟨d, -, hx⟩ | ⟨-, hx⟩⟩ := u.exec_cases p hi
  · cases hx.symm.trans h
  · cases hx.symm.trans h
    exact u.takeByte_out_appends p.rom d
  · cases hx.symm.trans h
    exact u.finish_out_appends p.rom

/-- Commands of `DEC` take no beat back. -/
theorem DecUnit.exec_out_appends {p : Params} {i : Instr} {u d : DecUnit} (hi : i.unit = .dec) (h : u.exec p i = .next d) :
    ∃ new, d.out = u.out ++ new := by
  obtain ⟨c, -, -, hx⟩ | ⟨c, -, -, hx⟩ | ⟨-, hx⟩ := u.exec_cases p hi
  · cases hx.symm.trans h
  · cases hx.symm.trans h
    exact ⟨[], by rw [DecUnit.takeChar_out, List.append_nil]⟩
  · cases hx.symm.trans h
    exact ⟨_, by rw [DecUnit.finish_eq, DecUnit.idle_out]⟩

/-- A character keeps the completed bytes and completes at most one more. -/
theorem DecUnit.takeChar_obuf (p : Params) (c : Chr) (u : DecUnit) :
    ∃ bytes, (u.takeChar p c).obuf = u.obuf ++ bytes ∧ bytes.length ≤ 1 := by
  obtain ⟨-, h⟩ | ⟨-, -, h⟩ | ⟨v, -, -, h⟩ | ⟨c', -, -, h⟩ := u.takeChar_cases p c
  · exact ⟨[], by simp [h], by simp⟩
  · exact ⟨[], by simp [h], by simp⟩
  · obtain ⟨bytes, hobuf, hlen⟩ := u.takeSymbol_obuf v
    exact ⟨bytes, by rw [h, hobuf], by rw [hlen]; split <;> decide⟩
  · exact ⟨[], by simp [h], by simp⟩

/-- Settles O16: the command replaces the encoder of the selected instance by one whose channel has grown. -/
theorem encoderCommandsChangeOnlyTheirUnit : Obligations.EncoderCommandsChangeOnlyTheirUnit := by
  intro i s t hi h
  rw [exec_of_enc s hi] at h
  obtain ⟨m, e, hm, he, rfl⟩ := State.onEnc_eq_next.mp h
  obtain ⟨new, hout⟩ := EncUnit.exec_out_appends hi he
  exact ⟨rfl, rfl, rfl, s.setEnc_length e, fun _ hk => s.setEnc_other e hk, m, e, new, hm,
    by rw [State.setEnc_codec?, hm]; rfl, hout⟩

/-- Settles O34: the command replaces the decoder of the selected instance by one whose channel has grown; only `DEND` emits, and
a character completes at most one byte. -/
theorem decoderCommandsChangeOnlyTheirUnit : Obligations.DecoderCommandsChangeOnlyTheirUnit := by
  intro i s t hi h
  rw [exec_of_dec s hi] at h
  obtain ⟨m, d, hm, hd, rfl⟩ := State.onDec_eq_next.mp h
  obtain ⟨new, hout⟩ := DecUnit.exec_out_appends hi hd
  refine ⟨rfl, rfl, rfl, s.setDec_length d, fun _ hk => s.setDec_other d hk, m, d, new, hm,
    by rw [State.setDec_codec?, hm]; rfl, hout, ?_⟩
  rintro c rfl
  obtain ⟨c', -, -, hx⟩ | ⟨c', -, -, hx⟩ | ⟨hc, -⟩ := m.dec.exec_cases s.cfg hi
  · cases hx.symm.trans hd
  · cases hx.symm.trans hd
    rw [DecUnit.takeChar_out] at hout
    exact ⟨List.self_eq_append_right.mp hout, m.dec.takeChar_obuf s.cfg c'⟩
  · cases hc

/-- Settles O17: what the encoder answers depends on the parameters and on it alone. -/
theorem encoderCommandsReadOnlyTheirUnit : Obligations.EncoderCommandsReadOnlyTheirUnit := by
  intro i s₁ s₂ m₁ m₂ hi hcfg h₁ h₂ henc
  rw [exec_of_enc s₁ hi, exec_of_enc s₂ hi, State.onEnc_eq_mapNext _ h₁, State.onEnc_eq_mapNext _ h₂, hcfg, henc]
  obtain ⟨-, hx⟩ | ⟨-, ⟨d, -, hx⟩ | ⟨-, hx⟩⟩ := m₂.enc.exec_cases s₂.cfg hi <;> rw [hx]
  · exact .inr ⟨_, rfl, rfl⟩
  · exact .inl ⟨_, rfl, rfl⟩
  · exact .inl ⟨_, rfl, rfl⟩

/-- Settles O35: what the decoder answers depends on the parameters and on it alone. -/
theorem decoderCommandsReadOnlyTheirUnit : Obligations.DecoderCommandsReadOnlyTheirUnit := by
  intro i s₁ s₂ m₁ m₂ hi hcfg h₁ h₂ hdec
  rw [exec_of_dec s₁ hi, exec_of_dec s₂ hi, State.onDec_eq_mapNext _ h₁, State.onDec_eq_mapNext _ h₂, hcfg, hdec]
  obtain ⟨c, -, -, hx⟩ | ⟨c, -, -, hx⟩ | ⟨-, hx⟩ := m₂.dec.exec_cases s₂.cfg hi <;> rw [hx]
  · exact .inr ⟨_, rfl, rfl⟩
  · exact .inl ⟨_, rfl, rfl⟩
  · exact .inl ⟨_, rfl, rfl⟩

/-! ### One step as the step of one instance -/

/-- An act of the host on an instance: the unit it is addressed to acts, and the position on its channel moves on. -/
def Codec.act (p : Params) (a : HostAct) (m : Codec) : UnitOutcome Codec :=
  match a.unit with
  | .enc => mapNext (fun e => { m with enc := e, encPos := positionAfter a m.encPos }) (m.enc.act p a)
  | .dec => mapNext (fun d => { m with dec := d, decPos := positionAfter a m.decPos }) (m.dec.act p a)

/-- The machine after a move on instance `k` that leaves this instance as `m` and the moves `rest` pending. -/
def State.afterMove (s : State) (k : Nat) (rest : List Move) (m : Codec) : State :=
  { s with host := rest, sel := k, insts := s.insts.set k m }

@[simp] theorem State.afterMove_cfg (s : State) (k : Nat) (rest : List Move) (m : Codec) :
    (s.afterMove k rest m).cfg = s.cfg := rfl
@[simp] theorem State.afterMove_host (s : State) (k : Nat) (rest : List Move) (m : Codec) :
    (s.afterMove k rest m).host = rest := rfl
@[simp] theorem State.afterMove_sel (s : State) (k : Nat) (rest : List Move) (m : Codec) :
    (s.afterMove k rest m).sel = k := rfl
@[simp] theorem State.afterMove_insts (s : State) (k : Nat) (rest : List Move) (m : Codec) :
    (s.afterMove k rest m).insts = s.insts.set k m := rfl

theorem Codec.act_of_enc {a : HostAct} (p : Params) (m : Codec) (h : a.unit = .enc) :
    m.act p a = mapNext (fun e => { m with enc := e, encPos := positionAfter a m.encPos }) (m.enc.act p a) := by
  rw [Codec.act, h]

theorem Codec.act_of_dec {a : HostAct} (p : Params) (m : Codec) (h : a.unit = .dec) :
    m.act p a = mapNext (fun d => { m with dec := d, decPos := positionAfter a m.decPos }) (m.dec.act p a) := by
  rw [Codec.act, h]

/-- What an act that goes on has done to the instance. -/
theorem Codec.act_eq_next {p : Params} {a : HostAct} {m m' : Codec} (h : m.act p a = .next m') :
    (a.unit = .enc ∧ ∃ e, m.enc.act p a = .next e ∧ m' = { m with enc := e, encPos := positionAfter a m.encPos }) ∨
    (a.unit = .dec ∧ ∃ d, m.dec.act p a = .next d ∧ m' = { m with dec := d, decPos := positionAfter a m.decPos }) := by
  cases hu : a.unit with
  | enc => exact .inl ⟨rfl, mapNext_eq_next.mp (Codec.act_of_enc p m hu ▸ h)⟩
  | dec => exact .inr ⟨rfl, mapNext_eq_next.mp (Codec.act_of_dec p m hu ▸ h)⟩

/-- A step is what the addressed instance does with the next move. -/
theorem step_eq_act {s : State} {mv : Move} {rest : List Move} {m : Codec} (hhost : s.host = mv :: rest)
    (hm : s.insts[mv.inst]? = some m) : step s = mapNext (s.afterMove mv.inst rest) (m.act s.cfg mv.act) := by
  have hcodec : ({ s with host := rest, sel := mv.inst } : State).codec? = some m := hm
  have htrack : (State.track mv.act { s with host := rest, sel := mv.inst }).codec? = some (m.track mv.act) := by
    rw [State.track_codec?, hcodec]; rfl
  rw [step_cons hhost]
  cases hu : mv.act.unit with
  | enc =>
    rw [runAct_of_enc _ hu, State.onEnc_eq_mapNext _ htrack, Codec.act_of_enc _ _ hu, mapNext_mapNext, Codec.track_enc]
    congr 1
    funext e
    rw [State.setEnc_eq_set e htrack, State.track_eq_set _ hcodec, Codec.track_of_enc m hu]
    simp [State.afterMove]
  | dec =>
    rw [runAct_of_dec _ hu, State.onDec_eq_mapNext _ htrack, Codec.act_of_dec _ _ hu, mapNext_mapNext, Codec.track_dec]
    congr 1
    funext d
    rw [State.setDec_eq_set d htrack, State.track_eq_set _ hcodec, Codec.track_of_dec m hu]
    simp [State.afterMove]

theorem step_next_of_act {s : State} {mv : Move} {rest : List Move} {m m' : Codec} (hhost : s.host = mv :: rest)
    (hm : s.insts[mv.inst]? = some m) (ha : m.act s.cfg mv.act = .next m') :
    step s = .next (s.afterMove mv.inst rest m') := by
  rw [step_eq_act hhost hm, ha, mapNext_next]

/-- Settles O55: the state in which the move is met has no selected instance. -/
theorem missingInstanceFaults : Obligations.MissingInstanceFaults := by
  intro s mv rest hhost hm
  have hcodec : ({ s with host := rest, sel := mv.inst } : State).codec? = none := hm
  rw [step_cons hhost, runAct_missing _ (by rw [State.track_codec?, hcodec]; rfl)]

/-- Everything a step that goes on can have done. -/
theorem step_eq_next {s t : State} (h : step s = .next t) :
    (s.host = [] ∧ t = s) ∨
    ∃ mv rest m m', s.host = mv :: rest ∧ s.insts[mv.inst]? = some m ∧ m.act s.cfg mv.act = .next m' ∧
      t = s.afterMove mv.inst rest m' := by
  cases hhost : s.host with
  | nil => exact .inl ⟨rfl, (Host.Outcome.next.inj ((step_nil hhost).symm.trans h)).symm⟩
  | cons mv rest =>
    cases hm : s.insts[mv.inst]? with
    | none => cases (missingInstanceFaults s mv rest hhost hm).symm.trans h
    | some m =>
      rw [step_eq_act hhost hm] at h
      obtain ⟨m', ha, ht⟩ := mapNext_eq_next.mp h
      exact .inr ⟨mv, rest, m, m', rfl, hm, ha, ht⟩

/-- The same where a move is known to be pending. -/
theorem step_eq_next_of_cons {s t : State} {mv : Move} {rest : List Move} (hhost : s.host = mv :: rest)
    (h : step s = .next t) :
    ∃ m m', s.insts[mv.inst]? = some m ∧ m.act s.cfg mv.act = .next m' ∧ t = s.afterMove mv.inst rest m' := by
  obtain ⟨hnil, -⟩ | ⟨mv', rest', m, m', hcons, hm, ha, ht⟩ := step_eq_next h
  · cases hnil.symm.trans hhost
  · cases hcons.symm.trans hhost
    exact ⟨m, m', hm, ha, ht⟩

/-! ### Statements about one step -/

/-- Settles O6: the beat is the next move; around the command only the position on its channel moves on. -/
theorem stepRunsTheOfferedBeat : Obligations.StepRunsTheOfferedBeat := by
  intro s k b rest hhost
  rw [step_cons hhost]
  show exec (decodeBeat b) _ = exec (decodeBeat b) _
  rw [State.track, funext fun m => Codec.track_beat b m]

/-- A table word that decodes is a beat whose command it is. -/
theorem decodeTableWord_eq_some {nbits w : Nat} {i : Instr} (h : decodeTableWord nbits w = some i) :
    ∃ b, tableBeat nbits w = some b ∧ decodeBeat b = i := Option.map_eq_some_iff.mp h

/-- Settles O7: the word's beat is offered to the selected instance, so the step meets the state as it was. -/
theorem stepRunsTheFetchedTableWord : Obligations.StepRunsTheFetchedTableWord := by
  intro s nbits w i h
  obtain ⟨b, hb, rfl⟩ := decodeTableWord_eq_some h
  have hfetch : s.withFetchWord nbits w = s.offer b := by simp [State.withFetchWord, hb]
  rw [hfetch, stepRunsTheOfferedBeat _ s.sel b s.host rfl, ← decodeBeat_unit]
  rfl

/-- Settles O52: the reset is one act of the addressed unit. -/
theorem resetInputSetsOneUnitIdle : Obligations.ResetInputSetsOneUnitIdle := fun _ k m _ hm =>
  ⟨step_next_of_act (mv := ⟨k, .reset .enc⟩) (m' := { m with enc := m.enc.toIdle, encPos := 0 }) rfl hm rfl,
    step_next_of_act (mv := ⟨k, .reset .dec⟩) (m' := { m with dec := m.dec.toIdle, decPos := 0 }) rfl hm rfl⟩

/-- A read answers the instance as it is. -/
theorem Codec.act_read (p : Params) (u : UnitName) (m : Codec) : m.act p (.read u) = .next m := by cases u <;> rfl

/-- Writing back the instance that is there changes no instance. -/
theorem State.afterMove_self {s : State} {k : Nat} {m : Codec} (rest : List Move) (h : s.insts[k]? = some m) :
    s.afterMove k rest m = { s with host := rest, sel := k } := by
  obtain ⟨hlt, rfl⟩ := List.getElem?_eq_some_iff.mp h
  rw [State.afterMove, List.set_getElem_self hlt]

/-- Settles O53: a read writes back the instance that is there, and with no move pending a step answers its own state. -/
theorem readingAndWaitingChangeNothing : Obligations.ReadingAndWaitingChangeNothing := by
  refine ⟨fun s k m u rest hm => ?_, fun s hhost => step_nil hhost⟩
  rw [step_next_of_act rfl hm (Codec.act_read ..)]
  exact congrArg Host.Outcome.next (State.afterMove_self (s := { s with host := _ }) rest hm)

theorem EncUnit.act_out_appends {p : Params} {a : HostAct} {u e : EncUnit} (ha : a.unit = .enc) (h : u.act p a = .next e) :
    ∃ new, e.out = u.out ++ new := by
  cases a with
  | beat b => exact EncUnit.exec_out_appends ((decodeBeat_unit b).trans ha) h
  | reset _ => cases h; exact ⟨[], (List.append_nil _).symm⟩
  | read _ => cases h; exact ⟨[], (List.append_nil _).symm⟩

theorem DecUnit.act_out_appends {p : Params} {a : HostAct} {u d : DecUnit} (ha : a.unit = .dec) (h : u.act p a = .next d) :
    ∃ new, d.out = u.out ++ new := by
  cases a with
  | beat b => exact DecUnit.exec_out_appends ((decodeBeat_unit b).trans ha) h
  | reset _ => cases h; exact ⟨[], (List.append_nil _).symm⟩
  | read _ => cases h; exact ⟨[], (List.append_nil _).symm⟩

/-- What an act leaves of an instance: no beat is taken back, and the unit it is not addressed to is as before. -/
theorem Codec.act_frame {p : Params} {a : HostAct} {m u : Codec} (h : m.act p a = .next u) :
    (∃ new, u.enc.out = m.enc.out ++ new) ∧ (∃ new, u.dec.out = m.dec.out ++ new) ∧
      (a.unit = .enc → u.dec = m.dec ∧ u.decPos = m.decPos) ∧
      (a.unit = .dec → u.enc = m.enc ∧ u.encPos = m.encPos) := by
  obtain ⟨ha, e, he, rfl⟩ | ⟨ha, d, hd, rfl⟩ := Codec.act_eq_next h
  · exact ⟨EncUnit.act_out_appends ha he, ⟨[], (List.append_nil _).symm⟩, fun _ => ⟨rfl, rfl⟩,
      fun hdec => by cases ha.symm.trans hdec⟩
  · exact ⟨⟨[], (List.append_nil _).symm⟩, DecUnit.act_out_appends ha hd, fun henc => (by cases henc.symm.trans ha),
      fun _ => ⟨rfl, rfl⟩⟩

/-- Settles O50: a step replaces the addressed instance by what the act leaves of it. -/
theorem stepChangesOnlyTheAddressedUnit : Obligations.StepChangesOnlyTheAddressedUnit := by
  intro s t mv rest hhost h
  obtain ⟨m, u, hm, ha, rfl⟩ := step_eq_next_of_cons hhost h
  obtain ⟨hlt, -⟩ := List.getElem?_eq_some_iff.mp hm
  exact ⟨rfl, rfl, rfl, List.length_set, fun k hk => List.getElem?_set_ne (Ne.symm hk), m, u, hm,
    List.getElem?_set_self hlt, Codec.act_frame ha⟩

/-! ### Independent moves (rule R41) -/

/-- Acts on the two units of an instance commute. -/
theorem Codec.act_comm {p : Params} {a b : HostAct} {m m₁ m₂ : Codec} (hab : a.unit ≠ b.unit)
    (h₁ : m.act p a = .next m₁) (h₂ : m₁.act p b = .next m₂) :
    ∃ n, m.act p b = .next n ∧ n.act p a = .next m₂ := by
  obtain ⟨ha, e, he, rfl⟩ | ⟨ha, d, hd, rfl⟩ := Codec.act_eq_next h₁
  · obtain ⟨hb, -⟩ | ⟨hb, d, hd, rfl⟩ := Codec.act_eq_next h₂
    · exact absurd (ha.trans hb.symm) hab
    · exact ⟨_, by rw [Codec.act_of_dec p m hb, hd, mapNext_next], by rw [Codec.act_of_enc p _ ha, he, mapNext_next]⟩
  · obtain ⟨hb, e, he, rfl⟩ | ⟨hb, -⟩ := Codec.act_eq_next h₂
    · exact ⟨_, by rw [Codec.act_of_enc p m hb, he, mapNext_next], by rw [Codec.act_of_dec p _ ha, hd, mapNext_next]⟩
    · exact absurd (ha.trans hb.symm) hab

theorem coreRun_succ_eq_next {M : Host.Core} {s t : M.State} {n : Nat} :
    M.run (n + 1) s = .next t ↔ ∃ u, M.step s = .next u ∧ M.run n u = .next t := by
  cases h : M.step s <;> simp [Host.Core.run, h]

/-- A run that goes on begins with a step that goes on. -/
theorem run_succ_eq_next {s t : State} {n : Nat} :
    run (n + 1) s = .next t ↔ ∃ u, step s = .next u ∧ run n u = .next t := coreRun_succ_eq_next (M := core)

/-- The run of two moves that both go on. -/
theorem run_two_of_act {s : State} {a b : Move} {rest : List Move} {m m' n n' : Codec} (hm : s.insts[a.inst]? = some m)
    (ha : m.act s.cfg a.act = .next m') (hn : (s.insts.set a.inst m')[b.inst]? = some n)
    (hb : n.act s.cfg b.act = .next n') :
    run 2 { s with host := a :: b :: rest } = .next { s with
      host := rest, sel := b.inst, insts := (s.insts.set a.inst m').set b.inst n' } := by
  have first := step_next_of_act (s := { s with host := a :: b :: rest }) rfl hm ha
  exact (run_succ_of_step 1 first).trans (run_succ_of_step 0 (step_next_of_act rfl hn hb))

/-- Settles O51: moves on two instances write two places of the list of instances; moves on two units of one instance commute. -/
theorem independentMovesCommute : Obligations.IndependentMovesCommute := by
  rintro s t ⟨i, a⟩ ⟨j, b⟩ rest hind hrun
  obtain ⟨s₁, h₁, hrun⟩ := run_succ_eq_next.mp hrun
  obtain ⟨s₂, h₂, hlast⟩ := run_succ_eq_next.mp hrun
  obtain ⟨m, m₁, hm, ha, rfl⟩ := step_eq_next_of_cons rfl h₁
  obtain ⟨n, n₁, hn, hb, rfl⟩ := step_eq_next_of_cons rfl h₂
  obtain rfl := Host.Outcome.next.inj hlast
  obtain ⟨hlt, -⟩ := List.getElem?_eq_some_iff.mp hm
  by_cases hij : i = j
  · subst hij
    obtain rfl : m₁ = n := Option.some.inj ((List.getElem?_set_self hlt).symm.trans hn)
    obtain ⟨n', hb', ha'⟩ := Codec.act_comm (hind.resolve_left (absurd rfl)) ha hb
    refine ⟨_, run_two_of_act (a := ⟨i, b⟩) (b := ⟨i, a⟩) hm hb' (List.getElem?_set_self hlt) ha', ?_, rfl, rfl⟩
    simp [List.set_set]
  · have hn' : s.insts[j]? = some n := (List.getElem?_set_ne hij).symm.trans hn
    have hm' : (s.insts.set j n₁)[i]? = some m := (List.getElem?_set_ne (Ne.symm hij)).trans hm
    exact ⟨_, run_two_of_act (a := ⟨j, b⟩) (b := ⟨i, a⟩) hn' hb hm' ha, List.set_comm _ _ (Ne.symm hij), rfl, rfl⟩

end Sys2Proof.Machine
end

section
/-!
PROOFS. The invariant of the machine (spec file 10_state.md sections 2 and 3): every act of the host keeps it on the addressed
instance, and so does every step; what it says of the end of a run (rule R130), of stops (rule R127) and of the beats on the
output channels (rule R61).
-/

namespace Sys2Proof.Machine

/-! ### The encoder's invariant (rules R14 to R16) -/

/-- Widening or cutting a word does not make its number larger. -/
theorem toNat_setWidth_lt {r : Nat} (x : BitVec r) (k : Nat) : (x.setWidth k).toNat < 2 ^ r := by
  rw [BitVec.toNat_setWidth]
  exact (Nat.mod_le ..).trans_lt x.isLt

theorem EncUnit.idle_inv (out : List EO) : (EncUnit.idle out).Inv := by
  unfold EncUnit.Inv
  exact ⟨Nat.zero_le 2, Nat.one_pos⟩

theorem EncUnit.takeByte_inv (rom : Rom) (d : Byte) (u : EncUnit) : (u.takeByte rom d).Inv := by
  have hcnt := EncUnit.takeByte_cnt rom d u
  refine ⟨by omega, ?_⟩
  rw [hcnt, EncUnit.takeByte_eq rom d u rfl]
  exact toNat_setWidth_lt _ 2

theorem EncUnit.Inv.cnt_ne_three {u : EncUnit} (h : u.Inv) : u.cnt ≠ 3 := (cnt_ne_three_iff u.cnt).mpr h.1

/-- With no residual bits the unit is idle. -/
theorem EncUnit.Inv.isIdle {u : EncUnit} (h : u.Inv) (hc : u.cnt = 0) : u.isIdle := by
  obtain ⟨-, hacc⟩ := h
  rw [hc] at hacc
  exact ⟨BitVec.eq_of_toNat_eq (Nat.lt_one_iff.mp hacc), hc⟩

/-- An act on `ENC` keeps its invariant, and its counter stays the phase of the position in the message. -/
theorem EncUnit.act_inv {p : Params} {a : HostAct} {u e : EncUnit} {n : Nat} (ha : a.unit = .enc)
    (h : u.act p a = .next e) (hu : u.Inv) (hn : u.cnt.toNat = 8 * n % 3) :
    e.Inv ∧ e.cnt.toNat = 8 * positionAfter a n % 3 := by
  cases a with
  | beat b =>
    obtain ⟨hc, -⟩ | ⟨-, ⟨d, hi, hx⟩ | ⟨hi, hx⟩⟩ := u.exec_cases p ((decodeBeat_unit b).trans ha)
    · exact absurd hc hu.cnt_ne_three
    · cases hx.symm.trans h
      rw [positionAfter_data n (by rw [hi]; rfl), EncUnit.takeByte_cnt]
      exact ⟨u.takeByte_inv p.rom d, by omega⟩
    · cases hx.symm.trans h
      rw [positionAfter_closing n (by rw [hi]; rfl)]
      exact ⟨EncUnit.idle_inv _, rfl⟩
  | reset _ => cases h; exact ⟨EncUnit.idle_inv _, rfl⟩
  | read _ => cases h; exact ⟨hu, hn⟩

/-! ### The decoder's invariant (rules R17, R18, R20, R21) -/

theorem DecUnit.idle_inv (p : Params) (out : List DO) : (DecUnit.idle out).Inv p :=
  ⟨Nat.one_pos, fun _ => rfl, fun h => absurd h Bool.false_ne_true, fun cap _ => Nat.zero_le cap⟩

theorem DecUnit.takeSymbol_acc_lt (v : Val3) (u : DecUnit) :
    (u.takeSymbol v).acc.toNat < 2 ^ (u.takeSymbol v).nbits.toNat := by
  generalize hk : u.nbits.toNat = k
  have hlt : k < 8 := hk ▸ u.nbits.isLt
  have fits {r : Nat} (hr : r < 8) (x : BitVec r) : (x.setWidth 7).toNat < 2 ^ (BitVec.ofNat 3 r).toNat := by
    rw [BitVec.toNat_ofNat, Nat.mod_eq_of_lt hr]
    exact toNat_setWidth_lt x 7
  rw [DecUnit.takeSymbol_eq v u hk]
  split
  · exact fits (by omega) _
  · exact fits (by omega) _

/-- A buffer that holds no more than `OBUF_CAP` bytes keeps to it, if the symbol is not refused. -/
theorem DecUnit.takeSymbol_obuf_le {p : Params} {u : DecUnit} {v : Val3} {cap : Nat} (hcap : p.obufCap = some cap)
    (hle : u.obuf.length ≤ cap) (hroom : u.completesByte = true → u.obufIsFull p = false) :
    (u.takeSymbol v).obuf.length ≤ cap := by
  obtain ⟨bytes, hobuf, hlen⟩ := u.takeSymbol_obuf v
  rw [hobuf, List.length_append, hlen]
  split
  next hcomp =>
    have hlt : u.obuf.length < cap := by simpa [DecUnit.obufIsFull, hcap] using hroom hcomp
    omega
  next => exact hle

/-- A character that is not refused keeps the invariant. -/
theorem DecUnit.takeChar_inv {p : Params} {c : Chr} {u : DecUnit} (hu : u.Inv p) (ho : u.overflows p c = false) :
    (u.takeChar p c).Inv p := by
  obtain ⟨hacc, hgood, hbad, hcap⟩ := hu
  obtain ⟨-, h⟩ | ⟨-, -, h⟩ | ⟨v, hb, hc, h⟩ | ⟨c', hb, hc, h⟩ := u.takeChar_cases p c <;> rw [h]
  · exact ⟨hacc, hgood, hbad, hcap⟩
  · exact ⟨hacc, hgood, hbad, hcap⟩
  · have hroom : u.completesByte = true → u.obufIsFull p = false := fun hcomp =>
      Bool.eq_false_iff.mpr fun hfull =>
        absurd (DecUnit.overflows_iff.mpr ⟨hfull, hcomp, hb, v, hc⟩) (by rw [ho]; decide)
    exact ⟨u.takeSymbol_acc_lt v, by simpa using hgood, by simpa using hbad,
      fun cap hp => DecUnit.takeSymbol_obuf_le hp (hcap cap hp) hroom⟩
  · obtain ⟨rfl, -, -⟩ := (classify_eq_invalid_iff ..).mp hc
    exact ⟨hacc, fun hfalse => absurd hfalse (by simp), fun _ => hc, hcap⟩

theorem DecUnit.finish_isIdle (p : Params) (u : DecUnit) : (u.finish p).isIdle := by
  rw [DecUnit.finish_eq]
  exact ⟨rfl, rfl, rfl, rfl, rfl⟩

theorem DecUnit.finish_inv (p : Params) (u : DecUnit) : (u.finish p).Inv p := by
  rw [DecUnit.finish_eq]
  exact DecUnit.idle_inv p _

/-- An act on `DEC` keeps its invariant, and the unit stays idle while no message is open. -/
theorem DecUnit.act_inv {p : Params} {a : HostAct} {u d : DecUnit} {n : Nat} (ha : a.unit = .dec)
    (h : u.act p a = .next d) (hu : u.Inv p) (hn : n = 0 → u.isIdle) :
    d.Inv p ∧ (positionAfter a n = 0 → d.isIdle) := by
  cases a with
  | beat b =>
    obtain ⟨c, -, -, hx⟩ | ⟨c, hi, ho, hx⟩ | ⟨-, hx⟩ := u.exec_cases p ((decodeBeat_unit b).trans ha)
    · cases hx.symm.trans h
    · cases hx.symm.trans h
      rw [positionAfter_data n (by rw [hi]; rfl)]
      exact ⟨DecUnit.takeChar_inv hu ho, fun h0 => absurd h0 n.succ_ne_zero⟩
    · cases hx.symm.trans h
      exact ⟨u.finish_inv p, fun _ => u.finish_isIdle p⟩
  | reset _ => cases h; exact ⟨DecUnit.idle_inv p _, fun _ => ⟨rfl, rfl, rfl, rfl, rfl⟩⟩
  | read _ => cases h; exact ⟨hu, hn⟩

/-! ### The invariant of the machine -/

theorem Codec.act_inv {p : Params} {a : HostAct} {m m' : Codec} (hm : m.Inv p) (h : m.act p a = .next m') :
    m'.Inv p := by
  obtain ⟨henc, hdec, hphase, hidle⟩ := hm
  obtain ⟨ha, e, he, rfl⟩ | ⟨ha, d, hd, rfl⟩ := Codec.act_eq_next h
  · obtain ⟨henc', hphase'⟩ := EncUnit.act_inv ha he henc hphase
    exact ⟨henc', hdec, hphase', hidle⟩
  · obtain ⟨hdec', hidle'⟩ := DecUnit.act_inv ha hd hdec hidle
    exact ⟨henc, hdec', hphase, hidle'⟩

/-- An addressed instance exists when its number is below `N_INST`. -/
theorem State.Inv.exists_codec {s : State} {k : Nat} (h : s.Inv) (hk : k < s.cfg.nInst) :
    ∃ m, s.insts[k]? = some m ∧ m.Inv s.cfg := by
  obtain ⟨hlen, -, hall⟩ := h
  have hlt : k < s.insts.length := by omega
  exact ⟨_, List.getElem?_eq_getElem hlt, hall _ (List.getElem_mem hlt)⟩

theorem State.afterMove_inv {s : State} {k : Nat} {m m' : Codec} (rest : List Move) (h : s.Inv)
    (hm : s.insts[k]? = some m) (hm' : m'.Inv s.cfg) : (s.afterMove k rest m').Inv := by
  obtain ⟨hlen, -, hall⟩ := h
  obtain ⟨hlt, -⟩ := List.getElem?_eq_some_iff.mp hm
  exact ⟨List.length_set.trans hlen, hlen ▸ hlt,
    fun n hn => (List.mem_or_eq_of_mem_set hn).elim (hall n) fun hnew => hnew ▸ hm'⟩

/-- Settles O47: a step replaces one instance by what an act leaves of it, and acts keep the instance's invariant. -/
theorem stepKeepsInvariant : Obligations.StepKeepsInvariant := by
  intro s t h hstep
  obtain ⟨-, rfl⟩ | ⟨mv, rest, m, m', -, hm, ha, rfl⟩ := step_eq_next hstep
  · exact h
  · have ⟨_, _, hall⟩ := h
    exact State.afterMove_inv rest h hm (Codec.act_inv (hall m (List.mem_of_getElem? hm)) ha)

theorem Codec.powerOn_inv (p : Params) : Codec.powerOn.Inv p :=
  ⟨EncUnit.idle_inv [], DecUnit.idle_inv p [], rfl, fun _ => ⟨rfl, rfl, rfl, rfl, rfl⟩⟩

theorem State.powerOn_inv (p : Params) : (State.powerOn p).Inv :=
  ⟨List.length_replicate, p.ok.2, fun _ hm => eq_powerOn_of_mem hm ▸ Codec.powerOn_inv p⟩

/-- Settles O46: every instance is the idle one. -/
theorem invariantHoldsAtReset : Obligations.InvariantHoldsAtReset :=
  ⟨State.powerOn_inv Config.thisSystem, State.powerOn_inv⟩

/-- Settles O45: the reset state is the power-on state of one instance. -/
theorem resetLeavesEveryUnitIdle : Obligations.ResetLeavesEveryUnitIdle :=
  ⟨rfl, rfl, powerOn_runOver Config.thisSystem⟩

/-! ### The end of a run (rule R130) -/

/-- With no message open both units are idle. -/
theorem Codec.Inv.isIdle {p : Params} {m : Codec} (h : m.Inv p) (henc : m.encPos = 0) (hdec : m.decPos = 0) :
    m.enc.isIdle ∧ m.dec.isIdle := by
  obtain ⟨hinv, -, hphase, hidle⟩ := h
  rw [henc] at hphase
  exact ⟨hinv.isIdle (BitVec.eq_of_toNat_eq hphase), hidle hdec⟩

/-- Settles O59: a counter with the phase of position 0 is 0, and then no residual bit is left. -/
theorem runIsOverExactlyWhenNoMessageIsOpen : Obligations.RunIsOverExactlyWhenNoMessageIsOpen := by
  rintro s ⟨-, -, hall⟩
  have idle : (∀ m ∈ s.insts, m.encPos = 0 ∧ m.decPos = 0) → ∀ m ∈ s.insts, m.enc.isIdle ∧ m.dec.isIdle :=
    fun hclosed m hm => (hall m hm).isIdle (hclosed m hm).1 (hclosed m hm).2
  exact ⟨⟨fun ⟨hhost, hover⟩ => ⟨hhost, fun m hm => (hover m hm).1⟩,
    fun ⟨hhost, hclosed⟩ => ⟨hhost, fun m hm => ⟨hclosed m hm, idle hclosed m hm⟩⟩⟩, idle⟩

/-! ### Stops (rules R77, R127) -/

/-- Under its invariant `ENC` answers every act. -/
theorem EncUnit.act_total {a : HostAct} {u : EncUnit} (p : Params) (ha : a.unit = .enc) (hu : u.Inv) :
    ∃ e, u.act p a = .next e := by
  cases a with
  | beat b =>
    obtain ⟨hc, -⟩ | ⟨-, ⟨d, -, hx⟩ | ⟨-, hx⟩⟩ := u.exec_cases p ((decodeBeat_unit b).trans ha)
    · exact absurd hc hu.cnt_ne_three
    · exact ⟨_, hx⟩
    · exact ⟨_, hx⟩
  | reset _ => exact ⟨_, rfl⟩
  | read _ => exact ⟨_, rfl⟩

/-- `DEC` answers every act, or refuses it because its bounded buffer is full. -/
theorem DecUnit.act_total {a : HostAct} (p : Params) (u : DecUnit) (ha : a.unit = .dec) :
    (∃ d, u.act p a = .next d) ∨ (u.act p a = .refused .obufFull ∧ ∃ cap, p.obufCap = some cap) := by
  cases a with
  | beat b =>
    obtain ⟨c, -, ho, hx⟩ | ⟨c, -, -, hx⟩ | ⟨-, hx⟩ := u.exec_cases p ((decodeBeat_unit b).trans ha)
    · obtain ⟨hfull, -⟩ := DecUnit.overflows_iff.mp ho
      refine .inr ⟨hx, Option.ne_none_iff_exists'.mp fun hnone => ?_⟩
      simp [DecUnit.obufIsFull, hnone] at hfull
    · exact .inl ⟨_, hx⟩
    · exact .inl ⟨_, hx⟩
  | reset _ => exact .inl ⟨_, rfl⟩
  | read _ => exact .inl ⟨_, rfl⟩

theorem Codec.act_total_of_enc {p : Params} {a : HostAct} {m : Codec} (hm : m.Inv p) (ha : a.unit = .enc) :
    ∃ m', m.act p a = .next m' := by
  obtain ⟨henc, -⟩ := hm
  obtain ⟨e, he⟩ := EncUnit.act_total p ha henc
  exact ⟨_, by rw [Codec.act_of_enc p m ha, he, mapNext_next]⟩

theorem Codec.act_total {p : Params} {m : Codec} (a : HostAct) (hm : m.Inv p) :
    (∃ m', m.act p a = .next m') ∨ (m.act p a = .refused .obufFull ∧ ∃ cap, p.obufCap = some cap) := by
  cases ha : a.unit with
  | enc => exact .inl (Codec.act_total_of_enc hm ha)
  | dec =>
    rw [Codec.act_of_dec p m ha]
    obtain ⟨d, hd⟩ | ⟨hd, hcap⟩ := m.dec.act_total p ha
    · exact .inl ⟨_, by rw [hd, mapNext_next]⟩
    · exact .inr ⟨by rw [hd, mapNext_refused], hcap⟩

/-- Settles O49: with no move pending a step waits; otherwise it is the act of an instance, which only a full buffer refuses. -/
theorem stepIsTotalOrRefusedByCapacity : Obligations.StepIsTotalOrRefusedByCapacity := by
  intro s hinv hexists
  cases hhost : s.host with
  | nil => exact .inl ⟨s, step_nil hhost⟩
  | cons mv rest =>
    obtain ⟨m, hm, hm'⟩ := hinv.exists_codec (hexists mv rest hhost)
    rw [step_eq_act hhost hm]
    obtain ⟨m', ha⟩ | ⟨ha, hcap⟩ := Codec.act_total mv.act hm'
    · exact .inl ⟨_, by rw [ha, mapNext_next]⟩
    · exact .inr ⟨by rw [ha, mapNext_refused], hcap⟩

/-- Settles O23: under the invariant the encoder answers every beat, and the step keeps the invariant. -/
theorem encoderIsTotal : Obligations.EncoderIsTotal := by
  intro s k ws rest hinv hk hhost
  induction ws generalizing s with
  | nil => exact ⟨s, rfl, hhost, hinv⟩
  | cons w ws ih =>
    obtain ⟨m, hm, hm'⟩ := hinv.exists_codec hk
    obtain ⟨m', ha⟩ := Codec.act_total_of_enc (a := .beat (.ei w)) hm' rfl
    have hstep := step_next_of_act hhost hm ha
    obtain ⟨t, hrun, ht⟩ := ih _ (stepKeepsInvariant _ _ hinv hstep) hk rfl
    exact ⟨t, (run_succ_of_step ws.length hstep).trans hrun, ht⟩

/-! ### The beats on the output channels (rule R61) -/

theorem legalEO_of_mem_symbols {p : Params} {vs : List Val3} {w : EO} (h : w ∈ (symbolsOf p.rom vs).map eoSymbol) :
    LegalEO p w := by
  obtain ⟨c, hc, rfl⟩ := List.mem_map.mp h
  obtain ⟨v, -, rfl⟩ := List.mem_map.mp hc
  exact .inr ⟨v, rfl⟩

theorem EncUnit.takeByte_legal {p : Params} {u : EncUnit} (d : Byte) (hout : ∀ w ∈ u.out, LegalEO p w) :
    ∀ w ∈ (u.takeByte p.rom d).out, LegalEO p w := by
  obtain ⟨vs, hnew, -⟩ := u.takeByte_emits p.rom d
  rw [hnew]
  exact fun w hw => (List.mem_append.mp hw).elim (hout w) legalEO_of_mem_symbols

theorem EncUnit.finish_legal {p : Params} {u : EncUnit} (hu : u.Inv) (hout : ∀ w ∈ u.out, LegalEO p w) :
    ∀ w ∈ (u.finish p.rom).out, LegalEO p w := by
  obtain ⟨vs, hnew, -⟩ := u.finish_emits p.rom hu.1
  rw [hnew, EncUnit.idle_out]
  intro w hw
  obtain (hw | hw) | hw := (List.mem_append.mp hw).imp_left List.mem_append.mp
  · exact hout w hw
  · exact legalEO_of_mem_symbols hw
  · exact .inl (List.mem_singleton.mp hw)

/-- The word of an `InvalidSymbol` beat (rule R61). -/
theorem doResult_invalidSymbol (c : Chr) : doResult Status.invalidSymbol.code c = 0xA00000 ||| c.setWidth 24 := by
  refine BitVec.eq_of_toNat_eq ((BitVec.toNat_append (1#1 ++ 1#2) c).trans ?_)
  rw [BitVec.toNat_or, BitVec.toNat_setWidth_of_le (by decide)]
  rfl

theorem DecUnit.result_eq_invalidSymbol {p : Params} {u : DecUnit} {c : Chr} (h : u.result p = .invalidSymbol c) :
    u.bad = true ∧ c = u.badch := by
  unfold DecUnit.result at h
  split_ifs at h with hb
  exact ⟨hb, (DecodeResult.invalidSymbol.inj h).symm⟩

/-- What `DEND` appends under the invariant: the character that it names is invalid. -/
theorem DecUnit.resultBeats_legal {p : Params} {u : DecUnit} (hu : u.Inv p) :
    ∀ w ∈ resultBeats (u.result p), LegalDO p w := by
  obtain ⟨-, -, hbad, -⟩ := hu
  intro w hw
  cases hr : u.result p with
  | ok bytes =>
    rw [hr, resultBeats_ok] at hw
    obtain hw | hw := List.mem_append.mp hw
    · obtain ⟨b, -, rfl⟩ := List.mem_map.mp hw
      exact .inl ⟨b, rfl⟩
    · exact .inr (.inl (List.mem_singleton.mp hw))
  | invalidSymbol c =>
    obtain ⟨hb, rfl⟩ := DecUnit.result_eq_invalidSymbol hr
    obtain ⟨-, hws, hv⟩ := (classify_eq_invalid_iff ..).mp (hbad hb)
    rw [hr] at hw
    exact .inr (.inr (.inr (.inr ⟨_, hv, hws, (List.mem_singleton.mp hw).trans (doResult_invalidSymbol _)⟩)))
  | unexpectedEnd =>
    rw [hr] at hw
    exact .inr (.inr (.inl (List.mem_singleton.mp hw)))
  | invalidUtf8 =>
    rw [hr] at hw
    exact .inr (.inr (.inr (.inl (List.mem_singleton.mp hw))))

theorem EncUnit.act_legal {p : Params} {a : HostAct} {u e : EncUnit} (ha : a.unit = .enc) (h : u.act p a = .next e)
    (hu : u.Inv) (hout : ∀ w ∈ u.out, LegalEO p w) : ∀ w ∈ e.out, LegalEO p w := by
  cases a with
  | beat b =>
    obtain ⟨hc, -⟩ | ⟨-, ⟨d, -, hx⟩ | ⟨-, hx⟩⟩ := u.exec_cases p ((decodeBeat_unit b).trans ha)
    · exact absurd hc hu.cnt_ne_three
    · cases hx.symm.trans h
      exact EncUnit.takeByte_legal d hout
    · cases hx.symm.trans h
      exact EncUnit.finish_legal hu hout
  | reset _ => cases h; exact hout
  | read _ => cases h; exact hout

theorem DecUnit.act_legal {p : Params} {a : HostAct} {u d : DecUnit} (ha : a.unit = .dec) (h : u.act p a = .next d)
    (hu : u.Inv p) (hout : ∀ w ∈ u.out, LegalDO p w) : ∀ w ∈ d.out, LegalDO p w := by
  cases a with
  | beat b =>
    obtain ⟨c, -, -, hx⟩ | ⟨c, -, -, hx⟩ | ⟨-, hx⟩ := u.exec_cases p ((decodeBeat_unit b).trans ha)
    · cases hx.symm.trans h
    · cases hx.symm.trans h
      rw [DecUnit.takeChar_out]
      exact hout
    · cases hx.symm.trans h
      rw [DecUnit.finish_eq, DecUnit.idle_out]
      exact fun w hw => (List.mem_append.mp hw).elim (hout w) (DecUnit.resultBeats_legal hu w)
  | reset _ => cases h; exact hout
  | read _ => cases h; exact hout

/-- Settles O48: the channels are empty at reset, and an act appends symbol beats, end beats or the beats of a result. -/
theorem stepKeepsOutputsLegal : Obligations.StepKeepsOutputsLegal := by
  refine ⟨fun m hm => ?_, fun s t hinv hlegal hstep => ?_⟩
  · rw [eq_powerOn_of_mem (p := Config.thisSystem) hm]
    exact ⟨fun _ hw => absurd hw List.not_mem_nil, fun _ hw => absurd hw List.not_mem_nil⟩
  · obtain ⟨-, rfl⟩ | ⟨mv, rest, m, m', -, hm, hact, rfl⟩ := step_eq_next hstep
    · exact hlegal
    · have hmem := List.mem_of_getElem? hm
      obtain ⟨-, -, hall⟩ := hinv
      obtain ⟨henc, hdec, -⟩ := hall m hmem
      obtain ⟨eoLegal, doLegal⟩ := hlegal m hmem
      refine fun n hn => (List.mem_or_eq_of_mem_set hn).elim (hlegal n) fun hnew => ?_
      subst hnew
      obtain ⟨ha, e, he, rfl⟩ | ⟨ha, d, hd, rfl⟩ := Codec.act_eq_next hact
      · exact ⟨EncUnit.act_legal ha he henc eoLegal, doLegal⟩
      · exact ⟨eoLegal, DecUnit.act_legal ha hd hdec doLegal⟩

end Sys2Proof.Machine
end

section
/-!
PROOFS. The commands on the units in the cases that remain: the encoder's excluded counter, the drained decoder, the phase table
of `DCHAR` (rule R87), when `DCHAR` is refused (rule R88), and the end rule of `DEND` (rule R91).
-/

namespace Sys2Proof.Machine

/-- Settles O15: the guard refuses both commands. -/
theorem encoderRefusesCounterThree : Obligations.EncoderRefusesCounterThree := by
  intro s m d hm hc
  have refused {i : Instr} (hi : i.unit = .enc) : exec i s = .refused .encCounterIllegal := by
    rw [exec_of_enc s hi, State.onEnc_eq_mapNext _ hm]
    obtain ⟨-, hx⟩ | ⟨hne, -⟩ := m.enc.exec_cases s.cfg hi
    · rw [hx, mapNext_refused]
    · exact absurd hc hne
  exact ⟨refused rfl, refused rfl⟩

/-- Settles O25: a drained unit refuses nothing, and the unit written back is the one that was read. -/
theorem dcharDrainedChangesNothing : Obligations.DcharDrainedChangesNothing := by
  intro s m c hm hb
  have ho : m.dec.overflows s.cfg c = false := by simp [DecUnit.overflows, hb]
  rw [exec_dchar c hm ho, DecUnit.takeChar_bad _ c hb, State.setDec_self hm]

/-! ### The phase table (rule R87) -/

theorem DecUnit.completesByte_iff {u : DecUnit} : u.completesByte = true ↔ 5 ≤ u.nbits.toNat := by
  simp [DecUnit.completesByte]

/-- A symbol with a value is taken, unless it completes a byte for which there is no room. -/
theorem exec_dchar_symbol {s : State} {m : Codec} {c : Chr} {v : Val3} (hm : s.codec? = some m) (hb : m.dec.bad = false)
    (hws : isWs s.cfg.ws c = false) (hv : valueFor s.cfg.rom c = some v)
    (hroom : 5 ≤ m.dec.nbits.toNat → ∀ cap, s.cfg.obufCap = some cap → m.dec.obuf.length < cap) :
    exec (.dchar c) s = .next (s.setDec (m.dec.takeSymbol v)) := by
  have hc := (classify_eq_symbol_iff s.cfg.rom s.cfg.ws c v).mpr ⟨hws, hv⟩
  have ho : m.dec.overflows s.cfg c = false := Bool.eq_false_iff.mpr fun ho => by
    obtain ⟨hfull, hcomp, -⟩ := DecUnit.overflows_iff.mp ho
    cases hcap : s.cfg.obufCap with
    | none => simp [DecUnit.obufIsFull, hcap] at hfull
    | some cap =>
      have hle : cap ≤ m.dec.obuf.length := by simpa [DecUnit.obufIsFull, hcap] using hfull
      exact Nat.not_le.mpr (hroom (DecUnit.completesByte_iff.mp hcomp) cap hcap) hle
  rw [exec_dchar c hm ho, DecUnit.takeChar_symbol hb hc]

/-- A row of the table that completes no byte. -/
theorem DecUnit.takeSymbol_residual {u : DecUnit} {v : Val3} {n : BitVec 3} {acc : BitVec 7} (h : u.nbits = n)
    (hn : n.toNat < 5) (hacc : (u.acc.extractLsb' 0 n.toNat ++ v).setWidth 7 = acc) :
    u.takeSymbol v = { u with acc := acc, nbits := BitVec.ofNat 3 (n.toNat + 3) } := by
  rw [DecUnit.takeSymbol_eq v u (congrArg BitVec.toNat h), if_neg (Nat.not_le.mpr hn), hacc]

/-- A row of the table that completes a byte. -/
theorem DecUnit.takeSymbol_byte {u : DecUnit} {v : Val3} {n : BitVec 3} {acc : BitVec 7} {b : Byte} (h : u.nbits = n)
    (hn : 5 ≤ n.toNat) (hb : (u.acc.extractLsb' 0 n.toNat ++ v).extractLsb' (n.toNat - 5) 8 = b)
    (hacc : ((u.acc.extractLsb' 0 n.toNat ++ v).extractLsb' 0 (n.toNat - 5)).setWidth 7 = acc) :
    u.takeSymbol v =
      { u with acc := acc, nbits := BitVec.ofNat 3 (n.toNat - 5), obuf := u.obuf ++ [b] } := by
  rw [DecUnit.takeSymbol_eq v u (congrArg BitVec.toNat h), if_pos hn, hb, hacc]

theorem toNat_zero_append {w : Nat} (k : Nat) (x : BitVec w) : (0#k ++ x).toNat = x.toNat := by
  simp [BitVec.toNat_append]

/-- Residual bits and a value, padded with zeros in front. -/
theorem setWidth_append_eq {k j : Nat} (x : BitVec k) (v : Val3) (h : j + k + 3 = 7) :
    (x ++ v).setWidth 7 = (0#j ++ x ++ v).cast h := by
  refine BitVec.eq_of_toNat_eq ?_
  rw [BitVec.toNat_setWidth_of_le (by omega), BitVec.toNat_cast, BitVec.toNat_append, BitVec.toNat_append, toNat_zero_append]

/-- With no residual bits the value alone is padded. -/
theorem setWidth_append_zero_width (x : BitVec 0) (v : Val3) : (x ++ v).setWidth 7 = 0#4 ++ v := by
  refine BitVec.eq_of_toNat_eq ?_
  rw [BitVec.of_length_zero (x := x), BitVec.toNat_setWidth_of_le (by decide), toNat_zero_append, toNat_zero_append]

/-- Settles O26: in each phase the word of the residual bits and the value is read off. -/
theorem dcharSymbolFollowsThePhaseTable : Obligations.DcharSymbolFollowsThePhaseTable := by
  intro s m c v hm hb hws hv a after afterByte
  have residual {n n' : BitVec 3} {acc : BitVec 7} (hn : n.toNat < 5) (hn' : BitVec.ofNat 3 (n.toNat + 3) = n')
      (hacc : (a.extractLsb' 0 n.toNat ++ v).setWidth 7 = acc) (h : m.dec.nbits = n) : after acc n' := by
    refine (exec_dchar_symbol hm hb hws hv fun h5 => absurd h5 (by rw [h]; omega)).trans ?_
    rw [DecUnit.takeSymbol_residual h hn hacc, hn']
  have byte {n n' : BitVec 3} {acc : BitVec 7} {b : Byte} (hn : 5 ≤ n.toNat) (hn' : BitVec.ofNat 3 (n.toNat - 5) = n')
      (hbyte : (a.extractLsb' 0 n.toNat ++ v).extractLsb' (n.toNat - 5) 8 = b)
      (hacc : ((a.extractLsb' 0 n.toNat ++ v).extractLsb' 0 (n.toNat - 5)).setWidth 7 = acc) (h : m.dec.nbits = n) :
      afterByte b acc n' := by
    intro hroom
    refine (exec_dchar_symbol hm hb hws hv fun _ => hroom).trans ?_
    rw [DecUnit.takeSymbol_byte h hn hbyte hacc, hn']
  refine ⟨residual (by decide) rfl ?_, residual (by decide) rfl ?_, byte (by decide) rfl ?_ ?_,
    residual (by decide) rfl ?_, residual (by decide) rfl ?_, byte (by decide) rfl ?_ ?_,
    residual (by decide) rfl ?_, byte (by decide) rfl ?_ ?_⟩
  · exact setWidth_append_zero_width _ v
  · exact setWidth_append_eq (j := 1) (a.extractLsb' 0 3) v rfl
  · simp [↓BitVec.extractLsb'_append_eq_ite]
  · have pad : (v.extractLsb' 0 1).setWidth 7 = 0#6 ++ v.extractLsb' 0 1 := BitVec.setWidth_eq_append (by decide)
    simp [↓BitVec.extractLsb'_append_eq_ite, pad]
  · exact setWidth_append_eq (j := 3) (a.extractLsb' 0 1) v rfl
  · exact BitVec.setWidth_eq _
  · simp [↓BitVec.extractLsb'_append_eq_ite]
  · have pad : (v.extractLsb' 0 2).setWidth 7 = 0#5 ++ v.extractLsb' 0 2 := BitVec.setWidth_eq_append (by decide)
    simp [↓BitVec.extractLsb'_append_eq_ite, pad]
  · exact setWidth_append_eq (j := 2) (a.extractLsb' 0 2) v rfl
  · simp [↓BitVec.extractLsb'_append_eq_ite]
  · simp [↓BitVec.extractLsb'_append_eq_ite]

/-! ### Refusal (rule R88) -/

theorem exec_dchar_eq_refused_iff {s : State} {m : Codec} {c : Chr} (hm : s.codec? = some m) :
    exec (.dchar c) s = .refused .obufFull ↔ m.dec.overflows s.cfg c = true := by
  cases ho : m.dec.overflows s.cfg c with
  | true => exact iff_of_true (exec_dchar_refused c hm ho) rfl
  | false => exact iff_of_false (by rw [exec_dchar c hm ho]; nofun) Bool.false_ne_true

/-- A buffer that holds no more than `OBUF_CAP` bytes is full when it holds exactly so many. -/
theorem DecUnit.obufIsFull_iff {p : Params} {u : DecUnit} (h : ∀ cap, p.obufCap = some cap → u.obuf.length ≤ cap) :
    u.obufIsFull p = true ↔ p.obufCap = some u.obuf.length := by
  cases hcap : p.obufCap with
  | none => simp [DecUnit.obufIsFull, hcap]
  | some cap =>
    have hle := h cap hcap
    simp only [DecUnit.obufIsFull, hcap, decide_eq_true_eq, Option.some.injEq]
    omega

/-- Settles O28: the four conditions are those under which the unit overflows. -/
theorem dcharRefusedExactlyWhenBufferFull : Obligations.DcharRefusedExactlyWhenBufferFull := by
  intro s m c hm hcap
  refine ⟨?_, fun hnone => ⟨_, exec_dchar c hm (by simp [DecUnit.overflows, DecUnit.obufIsFull, hnone])⟩⟩
  rw [exec_dchar_eq_refused_iff hm, DecUnit.overflows_iff, DecUnit.obufIsFull_iff hcap, DecUnit.completesByte_iff]
  tauto

/-! ### The end rule (rule R91) -/

/-- The outcome kind of a result (rule R100). -/
def DecodeResult.status : DecodeResult → Status
  | .ok _ => .ok
  | .invalidSymbol _ => .invalidSymbol
  | .unexpectedEnd => .unexpectedEnd
  | .invalidUtf8 => .invalidUtf8

/-- The last beat of a result carries its status. -/
theorem resultBeats_getLast?_status (r : DecodeResult) :
    (resultBeats r).getLast?.map (BitVec.extractLsb' 21 2) = some r.status.code := by
  cases r with
  | ok bytes => rw [resultBeats, List.getLast?_concat, Option.map_some, doResult_status]; rfl
  | invalidSymbol c => exact congrArg some (doResult_status _ c)
  | unexpectedEnd => exact congrArg some (doResult_status _ 0)
  | invalidUtf8 => exact congrArg some (doResult_status _ 0)

/-- The beat 0xC00000 alone is delivered only for a truncated message. -/
theorem status_of_resultBeats_unexpectedEnd {r : DecodeResult} (h : resultBeats r = [0xC00000]) :
    r = .unexpectedEnd := by
  have hstatus : some r.status.code = some 2 := by
    rw [← resultBeats_getLast?_status, h]
    decide
  cases r with
  | ok bytes => exact absurd hstatus (show some (0 : BitVec 2) ≠ some 2 by decide)
  | invalidSymbol c => exact absurd hstatus (show some (1 : BitVec 2) ≠ some 2 by decide)
  | unexpectedEnd => rfl
  | invalidUtf8 => exact absurd hstatus (show some (3 : BitVec 2) ≠ some 2 by decide)

theorem DecUnit.result_of_truncated {p : Params} {u : DecUnit} (hb : u.bad = false) (hn : 3 ≤ u.nbits.toNat) :
    u.result p = .unexpectedEnd := by
  simp [DecUnit.result, hb, hn]

theorem DecUnit.result_ne_unexpectedEnd {p : Params} {u : DecUnit} (hn : u.nbits.toNat < 3) :
    u.result p ≠ .unexpectedEnd := by
  unfold DecUnit.result
  rw [if_neg (Nat.not_le.mpr hn)]
  split_ifs <;> nofun

/-- At a legal end the residual bits play no part. -/
theorem DecUnit.result_residual {p : Params} {u : DecUnit} (a : BitVec 7) {n : BitVec 3} (hn : n.toNat < 3)
    (hu : u.nbits.toNat < 3) : DecUnit.result p { u with acc := a, nbits := n } = u.result p := by
  simp only [DecUnit.result, if_neg (Nat.not_le.mpr hn), if_neg (Nat.not_le.mpr hu)]

/-- Settles O30: the second test of rule R89 alone looks at the counter, and it only compares it with 3. -/
theorem dendEndRule : Obligations.DendEndRule := by
  intro s m hm hb
  refine ⟨fun hn => exec_dend_of_result hm (DecUnit.result_of_truncated hb hn),
    fun hn => ⟨fun t u ht hu => ?_, fun a n hn' => ?_⟩⟩
  · rw [exec_dend_of_result hm rfl] at ht
    obtain rfl := Host.Outcome.next.inj ht
    rw [State.setDec_codec?, hm] at hu
    obtain rfl := Option.some.inj hu
    exact fun hout => DecUnit.result_ne_unexpectedEnd hn
      (status_of_resultBeats_unexpectedEnd (List.append_cancel_left hout))
  · have hm' : (s.setDec { m.dec with acc := a, nbits := n }).codec? =
        some { m with dec := { m.dec with acc := a, nbits := n } } := by rw [State.setDec_codec?, hm]; rfl
    rw [exec_dend_of_result hm' (DecUnit.result_residual a hn' hn), exec_dend_of_result hm rfl, State.setDec_setDec]
    rfl

end Sys2Proof.Machine
end

section
/-!
PROOFS. Runs over parts of messages, whole messages and sequences of them (spec files 20_memory.md section 5, 42_decoder.md
section 5, 70_reset_and_hazards.md sections 3 and 4).
-/

namespace Sys2Proof.Machine

/-! ### Runs in parts -/

theorem coreRun_add_of_next {M : Host.Core} {s t : M.State} {i : Nat} (j : Nat) (h : M.run i s = .next t) :
    M.run (i + j) s = M.run j t := by
  induction i generalizing s with
  | zero => rw [Host.Outcome.next.inj h, Nat.zero_add]
  | succ i ih =>
    obtain ⟨u, hu, hrun⟩ := coreRun_succ_eq_next.mp h
    rw [Nat.add_right_comm, coreRun_succ_of_step M _ hu, ih hrun]

/-- A run goes on where its first part ended. -/
theorem run_add_of_next {s t : State} {i : Nat} (j : Nat) (h : run i s = .next t) : run (i + j) s = run j t :=
  coreRun_add_of_next (M := core) j h

theorem coreRun_succ_of_refused {M : Host.Core} {s : M.State} {r : M.Refusal} (n : Nat) (h : M.step s = .refused r) :
    M.run (n + 1) s = .refused r := by
  simp [Host.Core.run, h]

theorem run_succ_of_refused {s : State} {r : Refusal} (n : Nat) (h : step s = .refused r) : run (n + 1) s = .refused r :=
  coreRun_succ_of_refused (M := core) n h

theorem coreRun_succ_of_fault {M : Host.Core} {s : M.State} {r : M.Fault} (n : Nat) (h : M.step s = .fault r) :
    M.run (n + 1) s = .fault r := by
  simp [Host.Core.run, h]

theorem run_succ_of_fault {s : State} {r : Fault} (n : Nat) (h : step s = .fault r) : run (n + 1) s = .fault r :=
  coreRun_succ_of_fault (M := core) n h

/-- A machine that is offered nothing waits for ever. -/
theorem run_of_host_nil {s : State} (h : s.host = []) (n : Nat) : run n s = .next s := by
  induction n with
  | zero => rfl
  | succ n ih => rw [run_succ_of_step n (step_nil h), ih]

theorem movesOf_append (k : Nat) (is js : List Instr) : movesOf k (is ++ js) = movesOf k is ++ movesOf k js :=
  List.map_append

theorem movesOf_length (k : Nat) (is : List Instr) : (movesOf k is).length = is.length := List.length_map ..

/-! ### The data beats of a message -/

/-- The machine before any move is the one "after" no moves. -/
theorem State.eq_of_no_moves {s : State} {k : Nat} {m : Codec} (hm : s.insts[k]? = some m) :
    s = { s with insts := s.insts.set k m } := by
  obtain ⟨hlt, rfl⟩ := List.getElem?_eq_some_iff.mp hm
  rw [List.set_getElem_self hlt]

/-- The run over `EBYTE` beats. -/
theorem run_ebytes {s : State} {k : Nat} {m : Codec} {rest : List Move} (bytes : List Byte) (hm : s.insts[k]? = some m)
    (hc : m.enc.cnt ≠ 3) (hhost : s.host = movesOf k (bytes.map .ebyte) ++ rest) :
    run bytes.length s = .next { s with
      host := rest, sel := if bytes = [] then s.sel else k,
      insts := s.insts.set k
        { m with enc := m.enc.takeBytes s.cfg.rom bytes, encPos := m.encPos + bytes.length } } := by
  induction bytes generalizing s m with
  | nil =>
    obtain rfl : s.host = rest := hhost
    exact congrArg Host.Outcome.next (State.eq_of_no_moves hm)
  | cons d bytes ih =>
    obtain ⟨hlt, -⟩ := List.getElem?_eq_some_iff.mp hm
    rw [List.length_cons, run_succ_of_step _ (step_ebyte hm hc hhost),
      ih (List.getElem?_set_self hlt) (EncUnit.takeByte_cnt_ne_three _ d _) rfl]
    simp [List.set_set, Nat.add_assoc, Nat.add_comm 1]

/-- The run over `DCHAR` beats for which there is room. -/
theorem run_dchars {s : State} {k : Nat} {m : Codec} {rest : List Move} (chars : List Chr) (hm : s.insts[k]? = some m)
    (hroom : m.dec.HasRoom s.cfg chars) (hhost : s.host = movesOf k (chars.map .dchar) ++ rest) :
    run chars.length s = .next { s with
      host := rest, sel := if chars = [] then s.sel else k,
      insts := s.insts.set k
        { m with dec := m.dec.takeChars s.cfg chars, decPos := m.decPos + chars.length } } := by
  induction chars generalizing s m with
  | nil =>
    obtain rfl : s.host = rest := hhost
    exact congrArg Host.Outcome.next (State.eq_of_no_moves hm)
  | cons c chars ih =>
    obtain ⟨hlt, -⟩ := List.getElem?_eq_some_iff.mp hm
    rw [List.length_cons, run_succ_of_step _ (step_dchar hm hroom.not_overflows hhost),
      ih (List.getElem?_set_self hlt) hroom.takeChar rfl]
    simp [List.set_set, Nat.add_assoc, Nat.add_comm 1]

theorem EncUnit.isIdle.inv {u : EncUnit} (h : u.isIdle) : u.Inv := by
  obtain ⟨hacc, hcnt⟩ := h
  simp [EncUnit.Inv, hacc, hcnt]

theorem EncUnit.takeBytes_inv (rom : Rom) (bytes : List Byte) {u : EncUnit} (hu : u.Inv) : (u.takeBytes rom bytes).Inv := by
  induction bytes generalizing u with
  | nil => exact hu
  | cons d bytes ih => exact ih (u.takeByte_inv rom d)

/-- Settles O18: the run is the bytes taken by the unit, each of which moves the counter by 8 modulo 3 and keeps the
invariant. -/
theorem encoderPhaseAfterBytes : Obligations.EncoderPhaseAfterBytes := by
  intro s k m bytes rest hm hidle hhost
  obtain ⟨hlt, -⟩ := List.getElem?_eq_some_iff.mp hm
  have ⟨_, hcnt⟩ := hidle
  have hphase := EncUnit.takeBytes_cnt s.cfg.rom bytes hidle.inv.1
  rw [hcnt] at hphase
  exact ⟨_, _, run_ebytes bytes hm hidle.inv.cnt_ne_three hhost, List.getElem?_set_self hlt,
    hphase.trans (by simp), EncUnit.takeBytes_inv s.cfg.rom bytes hidle.inv⟩

theorem DecUnit.isIdle.eq {u : DecUnit} (h : u.isIdle) : u = DecUnit.idle u.out := by
  obtain ⟨acc, nbits, bad, badch, obuf, out⟩ := u
  obtain ⟨rfl, rfl, rfl, rfl, rfl⟩ := h
  rfl

theorem DecUnit.isIdle.inv {u : DecUnit} (p : Params) (h : u.isIdle) : u.Inv p := by
  rw [h.eq]
  exact DecUnit.idle_inv p _

/-- An idle decoder has room for a message that fits. -/
theorem DecUnit.isIdle.hasRoom {p : Params} {u : DecUnit} {chars : List Chr} (h : u.isIdle) (hfits : fitsBuffer p chars) :
    u.HasRoom p chars := fun _ cap hcap => by
  rw [DecUnit.bits_of_isIdle h, List.length_nil, Nat.zero_add]
  exact hfits cap hcap

theorem DecUnit.takeChars_inv {p : Params} {chars : List Chr} {u : DecUnit} (hu : u.Inv p) (hroom : u.HasRoom p chars) :
    (u.takeChars p chars).Inv p := by
  induction chars generalizing u with
  | nil => exact hu
  | cons c chars ih => exact ih (DecUnit.takeChar_inv hu hroom.not_overflows) hroom.takeChar

theorem firstInvalid_eq_none {p : Params} {chars : List Chr} (h : ∀ c ∈ chars, classify p.rom p.ws c ≠ .invalid c) :
    firstInvalid p.rom (stripWs p.ws chars) = none := by
  refine List.find?_eq_none.mpr fun c hc hnone => ?_
  obtain ⟨hmem, hws⟩ := List.mem_filter.mp hc
  exact h c hmem ((classify_eq_invalid_iff ..).mpr ⟨rfl, by simpa using hws, by simpa using hnone⟩)

/-- An idle unit that takes characters none of which is invalid holds three bits for each symbol, and no error. -/
theorem DecUnit.takeChars_of_symbols {p : Params} {chars : List Chr} {u : DecUnit} (hu : u.isIdle)
    (h : ∀ c ∈ chars, classify p.rom p.ws c ≠ .invalid c) :
    (u.takeChars p chars).bad = false ∧
    (u.takeChars p chars).nbits.toNat = 3 * (stripWs p.ws chars).length % 8 ∧
    (u.takeChars p chars).obuf.length = 3 * (stripWs p.ws chars).length / 8 := by
  have hvalid := firstInvalid_eq_none h
  have ⟨_, _, hb, _, _⟩ := hu
  obtain ⟨hgood, hbits⟩ := DecUnit.takeChars_of_valid hb hvalid
  rw [DecUnit.nbits_toNat, DecUnit.obuf_length, hbits, DecUnit.bits_of_isIdle hu, List.nil_append, valueBits_length hvalid]
  exact ⟨hgood, rfl, rfl⟩

/-- Settles O36: the run is the characters taken by the unit, which then holds three bits for each symbol. -/
theorem decoderPhaseAfterSymbols : Obligations.DecoderPhaseAfterSymbols := by
  intro s k m chars rest hm hidle hvalid hfits hhost
  obtain ⟨hlt, -⟩ := List.getElem?_eq_some_iff.mp hm
  have hroom := hidle.hasRoom hfits
  obtain ⟨-, hnbits, hobuf⟩ := DecUnit.takeChars_of_symbols hidle hvalid
  obtain ⟨hacc, -⟩ := DecUnit.takeChars_inv (hidle.inv s.cfg) hroom
  exact ⟨_, _, run_dchars chars hm hroom hhost, List.getElem?_set_self hlt, hnbits, hacc, hobuf⟩

/-! ### Legal lengths (rule R92) -/

theorem exists_symbolCount_iff (L : Nat) : (∃ j, L = symbolCount j) ↔ L % 8 = 0 ∨ L % 8 = 3 ∨ L % 8 = 6 := by
  unfold symbolCount
  constructor
  · rintro ⟨j, rfl⟩
    obtain h | h | h : j % 3 = 0 ∨ j % 3 = 1 ∨ j % 3 = 2 := by omega
    all_goals
      obtain ⟨q, hq⟩ : ∃ q, j = 3 * q + j % 3 := ⟨j / 3, by omega⟩
      rw [hq, h]
      omega
  · intro h
    exact ⟨3 * L / 8, by omega⟩

theorem DecUnit.result_eq_unexpectedEnd_iff {p : Params} {u : DecUnit} (hb : u.bad = false) :
    u.result p = .unexpectedEnd ↔ 3 ≤ u.nbits.toNat :=
  ⟨fun h => Nat.not_lt.mp fun hlt => DecUnit.result_ne_unexpectedEnd hlt h, DecUnit.result_of_truncated hb⟩

/-- `DEND` reports `UnexpectedEnd` exactly with three or more residual bits. -/
theorem exec_dend_eq_unexpectedEnd_iff {s : State} {m : Codec} (hm : s.codec? = some m) (hb : m.dec.bad = false) :
    exec .dend s = .next (s.setDec (DecUnit.idle (m.dec.out ++ [0xC00000]))) ↔ 3 ≤ m.dec.nbits.toNat := by
  rw [exec_dend_of_result hm rfl, Host.Outcome.next.injEq, State.setDec_inj hm, DecUnit.idle_inj, List.append_right_inj,
    ← DecUnit.result_eq_unexpectedEnd_iff hb]
  exact ⟨status_of_resultBeats_unexpectedEnd, fun h => by rw [h]; rfl⟩

/-- Settles O39: `L` symbols leave `3L mod 8` residual bits, which are fewer than three for the lengths 0, 3 and 6 modulo 8. -/
theorem legalLengths : Obligations.LegalLengths := by
  intro s m chars rest hm hidle hvalid hfits hhost L bad
  obtain ⟨hlt, -⟩ := List.getElem?_eq_some_iff.mp hm
  obtain ⟨hgood, hnbits, hobuf⟩ := DecUnit.takeChars_of_symbols hidle hvalid
  have hrun := run_dchars chars hm (hidle.hasRoom hfits) hhost
  rw [ite_self] at hrun
  have hcodec {c : Codec} : ({ s with host := rest, insts := s.insts.set s.sel c } : State).codec? = some c :=
    List.getElem?_set_self hlt
  refine ⟨_, _, hrun, hcodec, ?_, ?_, ?_⟩
  · refine (exec_dend_eq_unexpectedEnd_iff hcodec hgood).trans ?_
    rw [hnbits]
    omega
  · rw [exists_symbolCount_iff]
    omega
  · intro j hj
    have hdiv : 3 * L / 8 = j := hj ▸ (symbolCount_bits j).1
    exact ⟨hdiv.symm, hobuf.trans hdiv⟩

/-! ### A whole message of the decoder, refused or not -/

/-- A message on the unit: its characters, each of which may be refused, and the end. -/
def DecUnit.message (p : Params) : List Chr → DecUnit → UnitOutcome DecUnit
  | [], u => .next (u.finish p)
  | c :: chars, u => if u.overflows p c then .refused .obufFull else DecUnit.message p chars (u.takeChar p c)

theorem step_dchar_refused {s : State} {k : Nat} {m : Codec} {c : Chr} {rest : List Move} (hm : s.insts[k]? = some m)
    (hc : m.dec.overflows s.cfg c = true) (hhost : s.host = ⟨k, .beat (encode (.dchar c))⟩ :: rest) :
    step s = .refused .obufFull := by
  have hact : m.dec.act s.cfg (.beat (encode (.dchar c))) = .refused .obufFull := by
    rw [DecUnit.act, decodeBeat_encode]
    exact if_pos hc
  rw [step_eq_act hhost hm, Codec.act_of_dec (a := .beat (encode (.dchar c))) _ _ rfl, hact, mapNext_refused,
    mapNext_refused]

/-- The run of a message is the message on the unit. -/
theorem run_decodeMessage_eq_message {s : State} {k : Nat} {m : Codec} {rest : List Move} (chars : List Chr)
    (hm : s.insts[k]? = some m) (hhost : s.host = movesOf k (decodeMessage chars) ++ rest) :
    run (chars.length + 1) s =
      mapNext (fun d => { s with host := rest, sel := k, insts := s.insts.set k { m with dec := d, decPos := 0 } })
        (m.dec.message s.cfg chars) := by
  induction chars generalizing s m with
  | nil => exact run_succ_of_step 0 (step_dend hm hhost)
  | cons c chars ih =>
    obtain ⟨hlt, -⟩ := List.getElem?_eq_some_iff.mp hm
    rw [DecUnit.message]
    split
    next ho => exact run_succ_of_refused _ (step_dchar_refused hm ho hhost)
    next ho =>
      rw [List.length_cons, run_succ_of_step _ (step_dchar hm (Bool.eq_false_iff.mpr ho) hhost),
        ih (List.getElem?_set_self hlt) rfl]
      simp [List.set_set]

theorem DecUnit.message_cons_of_whitespace {p : Params} {c : Chr} (chars : List Chr) (u : DecUnit)
    (h : isWs p.ws c = true) : u.message p (c :: chars) = u.message p chars := by
  have hc := (classify_eq_whitespace_iff p.rom p.ws c).mpr h
  rw [DecUnit.message, u.overflows_of_not_symbol (by simp [hc]), u.takeChar_whitespace hc]
  rfl

/-- Whitespace in a message makes no difference to the unit. -/
theorem DecUnit.message_stripWs (p : Params) (chars : List Chr) (u : DecUnit) :
    u.message p (stripWs p.ws chars) = u.message p chars := by
  induction chars generalizing u with
  | nil => rfl
  | cons c chars ih =>
    cases hw : isWs p.ws c with
    | true => rw [stripWs_cons_of_whitespace _ hw, ih, DecUnit.message_cons_of_whitespace _ _ hw]
    | false =>
      rw [stripWs_cons_of_not_whitespace _ hw, DecUnit.message, DecUnit.message]
      simp only [ih]

/-- Every message has a first beat, so a run of it on an instance that does not exist faults. -/
theorem run_decodeMessage_missing {s : State} {k : Nat} {rest : List Move} (chars : List Chr) (hm : s.insts[k]? = none)
    (hhost : s.host = movesOf k (decodeMessage chars) ++ rest) :
    run (chars.length + 1) s = .fault .noSuchInstance := by
  obtain ⟨b, moves, hfirst⟩ : ∃ b moves, s.host = ⟨k, .beat b⟩ :: moves := by
    cases chars <;> exact ⟨_, _, hhost⟩
  exact run_succ_of_fault _ (missingInstanceFaults s ⟨k, .beat b⟩ moves hfirst hm)

/-- Settles O42: `decode` strips the whitespace first, and so does the unit in effect. -/
theorem whitespaceIsInsignificant : Obligations.WhitespaceIsInsignificant := by
  intro s k s1 s2 rest h
  refine ⟨by rw [decodeStream, decodeStream, h], ?_⟩
  cases hm : s.insts[k]? with
  | none =>
    have faults (chars : List Chr) := run_decodeMessage_missing
      (s := { s with host := movesOf k (decodeMessage chars) ++ rest }) chars hm rfl
    rw [faults s1, faults s2]
  | some m =>
    have runs (chars : List Chr) := run_decodeMessage_eq_message
      (s := { s with host := movesOf k (decodeMessage chars) ++ rest }) chars hm rfl
    have same : m.dec.message s.cfg s1 = m.dec.message s.cfg s2 := by
      rw [← DecUnit.message_stripWs, h, DecUnit.message_stripWs]
    rw [runs s1, runs s2, same]

theorem acceptedSymbols_cons_of_invalid {p : Params} {c : Chr} (chars : List Chr) (hw : isWs p.ws c = false)
    (hv : valueFor p.rom c = none) : acceptedSymbols p (c :: chars) = 0 := by
  simp [acceptedSymbols, stripWs_cons_of_not_whitespace _ hw, hv]

/-- A message that would complete more than `OBUF_CAP` bytes meets the symbol that is refused (rule R88). -/
theorem DecUnit.message_refused {p : Params} {cap : Nat} {chars : List Chr} {u : DecUnit} (hcap : p.obufCap = some cap)
    (hb : u.bad = false) (hle : u.obuf.length ≤ cap) (hover : cap < (u.bits.length + 3 * acceptedSymbols p chars) / 8) :
    u.message p chars = .refused .obufFull := by
  have hobuf := u.obuf_length
  induction chars generalizing u with
  | nil =>
    have hzero : acceptedSymbols p [] = 0 := rfl
    rw [hzero] at hover
    omega
  | cons c chars ih =>
    obtain ⟨hw, hc⟩ | ⟨v, hw, hv, hc⟩ | ⟨hw, hv, hc⟩ := classify_cases p.rom p.ws c
    · rw [acceptedSymbols_cons_of_whitespace _ hw] at hover
      rw [DecUnit.message_cons_of_whitespace _ _ hw]
      exact ih hb hle hover hobuf
    · rw [DecUnit.message]
      split
      next => rfl
      next ho =>
        have hroom : u.completesByte = true → u.obufIsFull p = false := fun hcomp =>
          Bool.eq_false_iff.mpr fun hfull => ho (DecUnit.overflows_iff.mpr ⟨hfull, hcomp, hb, v, hc⟩)
        rw [DecUnit.takeChar_symbol hb hc]
        refine ih (by rw [DecUnit.takeSymbol_bad, hb]) (DecUnit.takeSymbol_obuf_le hcap hle hroom) ?_ (DecUnit.obuf_length _)
        rw [acceptedSymbols_cons_of_symbol _ hw hv] at hover
        rw [DecUnit.takeSymbol_bits, List.length_append, valBits_eq_wordBits, wordBits_length]
        omega
    · rw [acceptedSymbols_cons_of_invalid _ hw hv] at hover
      omega

/-- Settles O38: an idle unit holds no bits, so the symbols alone are too many for the buffer. -/
theorem overlongMessageIsRefused : Obligations.OverlongMessageIsRefused := by
  intro s k m chars rest hm hidle hover hhost
  obtain ⟨cap, hcap, hlong⟩ : ∃ cap, s.cfg.obufCap = some cap ∧ cap < 3 * acceptedSymbols s.cfg chars / 8 := by
    simpa [fitsBuffer] using hover
  have ⟨_, _, hb, _, hobuf⟩ := hidle
  rw [run_decodeMessage_eq_message chars hm hhost, DecUnit.message_refused hcap hb (by rw [hobuf]; exact Nat.zero_le cap)
    (by rwa [DecUnit.bits_of_isIdle hidle, List.length_nil, Nat.zero_add]), mapNext_refused]

/-! ### Sequences of messages (rules R29, R41, R42) -/

theorem encodeMessage_length (bytes : List Byte) : (encodeMessage bytes).length = bytes.length + 1 := by
  simp [encodeMessage]

theorem decodeMessage_length (chars : List Chr) : (decodeMessage chars).length = chars.length + 1 := by
  simp [decodeMessage]

/-- The moves of the first message of a sequence stand in front of those of the others. -/
theorem movesOf_flatMap_cons {α : Type} (k : Nat) (f : α → List Instr) (x : α) (xs : List α) (rest : List Move) :
    movesOf k ((x :: xs).flatMap f) ++ rest = movesOf k (f x) ++ (movesOf k (xs.flatMap f) ++ rest) := by
  rw [List.flatMap_cons, movesOf_append, List.append_assoc]

/-- One message of an idle encoder, as the next one finds the machine. -/
theorem run_encodeMessage_from_idle {s : State} {k : Nat} {m : Codec} {rest : List Move} (bytes : List Byte)
    (hm : s.insts[k]? = some m) (hidle : m.enc.isIdle) (hhost : s.host = movesOf k (encodeMessage bytes) ++ rest) :
    ∃ t, run (encodeMessage bytes).length s = .next t ∧ t.cfg = s.cfg ∧ t.host = rest ∧ t.insts[k]? = some { m with
      encPos := 0
      enc := EncUnit.idle (m.enc.out ++ ((encodeStream s.cfg.rom bytes).map (fun c => (0#1 ++ c : EO)) ++ [0x200000])) } := by
  obtain ⟨hlt, -⟩ := List.getElem?_eq_some_iff.mp hm
  rw [encodeMessage_length, encoderMessageEqualsReference s k m bytes rest hm hidle hhost, List.append_assoc]
  exact ⟨_, rfl, rfl, rfl, List.getElem?_set_self hlt⟩

/-- One message of an idle decoder that fits its buffer, likewise. -/
theorem run_decodeMessage_from_idle {s : State} {k : Nat} {m : Codec} {rest : List Move} (chars : List Chr)
    (hm : s.insts[k]? = some m) (hidle : m.dec.isIdle) (hfits : fitsBuffer s.cfg chars)
    (hhost : s.host = movesOf k (decodeMessage chars) ++ rest) :
    ∃ t, run (decodeMessage chars).length s = .next t ∧ t.cfg = s.cfg ∧ t.host = rest ∧ t.insts[k]? = some { m with
      decPos := 0
      dec := DecUnit.idle (m.dec.out ++ resultBeats (decodeStream s.cfg chars)) } := by
  obtain ⟨hlt, -⟩ := List.getElem?_eq_some_iff.mp hm
  rw [decodeMessage_length, decoderMessageEqualsReference s k m chars rest hm hidle hfits hhost]
  exact ⟨_, rfl, rfl, rfl, List.getElem?_set_self hlt⟩

/-- An instance whose idle unit has no message open, written out. -/
theorem Codec.eq_of_enc_isIdle {m : Codec} (hidle : m.enc.isIdle) (hpos : m.encPos = 0) :
    m = { m with encPos := 0, enc := EncUnit.idle (m.enc.out ++ []) } := by
  obtain ⟨⟨acc, cnt, out⟩, dec, encPos, decPos⟩ := m
  obtain ⟨rfl, rfl⟩ := hidle
  obtain rfl : encPos = 0 := hpos
  rw [List.append_nil]
  rfl

theorem Codec.eq_of_dec_isIdle {m : Codec} (hidle : m.dec.isIdle) (hpos : m.decPos = 0) :
    m = { m with decPos := 0, dec := DecUnit.idle (m.dec.out ++ []) } := by
  obtain ⟨enc, dec, encPos, decPos⟩ := m
  obtain rfl : decPos = 0 := hpos
  rw [List.append_nil, ← hidle.eq]

/-- Settles O56: each message leaves its unit idle with no message open, as the first one found it. -/
theorem messagesComeOutInOrder : Obligations.MessagesComeOutInOrder := by
  refine ⟨fun s k m msgs rest hm hidle hpos hhost => ?_, fun s k m msgs rest hm hidle hpos hfits hhost => ?_⟩
  · induction msgs generalizing s m with
    | nil => exact ⟨s, rfl, hhost, hm.trans (congrArg some (Codec.eq_of_enc_isIdle hidle hpos))⟩
    | cons bytes msgs ih =>
      obtain ⟨t, first, hcfg, hhost', hm'⟩ :=
        run_encodeMessage_from_idle bytes hm hidle (hhost.trans (movesOf_flatMap_cons ..))
      obtain ⟨t', hrun, ht', hout⟩ := ih t _ hm' ⟨rfl, rfl⟩ rfl hhost'
      refine ⟨t', ?_, ht', ?_⟩
      · rw [List.flatMap_cons, List.length_append, run_add_of_next _ first, hrun]
      · rw [hout, hcfg, EncUnit.idle_out, List.flatMap_cons, List.append_assoc]
  · induction msgs generalizing s m with
    | nil => exact ⟨s, rfl, hhost, hm.trans (congrArg some (Codec.eq_of_dec_isIdle hidle hpos))⟩
    | cons chars msgs ih =>
      obtain ⟨t, first, hcfg, hhost', hm'⟩ := run_decodeMessage_from_idle chars hm hidle
        (hfits chars List.mem_cons_self) (hhost.trans (movesOf_flatMap_cons ..))
      obtain ⟨t', hrun, ht', hout⟩ := ih t _ hm' ⟨rfl, rfl, rfl, rfl, rfl⟩ rfl
        (fun cs hcs => hcfg ▸ hfits cs (List.mem_cons_of_mem chars hcs)) hhost'
      refine ⟨t', ?_, ht', ?_⟩
      · rw [List.flatMap_cons, List.length_append, run_add_of_next _ first, hrun]
      · rw [hout, hcfg, DecUnit.idle_out, List.flatMap_cons, List.append_assoc]

/-! ### Closed and unclosed messages (rules R121, R130) -/

/-- The position on the input channel of a unit (rule R19 (a)). -/
def Codec.pos (m : Codec) : UnitName → Nat
  | .enc => m.encPos
  | .dec => m.decPos

theorem Codec.noMessageOpen_iff {m : Codec} : m.noMessageOpen ↔ ∀ v, m.pos v = 0 := by
  refine ⟨fun ⟨henc, hdec⟩ v => ?_, fun h => ⟨h .enc, h .dec⟩⟩
  cases v
  · exact henc
  · exact hdec

/-- An act moves only the position on the channel it is addressed to. -/
theorem Codec.act_pos {p : Params} {a : HostAct} {m m' : Codec} (h : m.act p a = .next m') (v : UnitName) :
    m'.pos v = if v = a.unit then positionAfter a (m.pos v) else m.pos v := by
  obtain ⟨hu, e, -, rfl⟩ | ⟨hu, d, -, rfl⟩ := Codec.act_eq_next h <;> cases v <;> simp [Codec.pos, hu]

/-- No message is open but on the channel of the unit `u` of instance `k`. -/
def State.OpenOnly (k : Nat) (u : UnitName) (s : State) : Prop :=
  ∀ j m, s.insts[j]? = some m → ∀ v, m.pos v ≠ 0 → j = k ∧ v = u

/-- No message is open on any channel. -/
def State.NoneOpen (s : State) : Prop :=
  ∀ m ∈ s.insts, m.noMessageOpen

theorem State.NoneOpen.openOnly {s : State} (h : s.NoneOpen) (k : Nat) (u : UnitName) : s.OpenOnly k u :=
  fun _ m hm v hne => absurd (Codec.noMessageOpen_iff.mp (h m (List.mem_of_getElem? hm)) v) hne

/-- A beat of a message with no other open keeps it so; a closing beat leaves none open. -/
theorem State.OpenOnly.afterMove {s : State} {k : Nat} {i : Instr} {m m' : Codec} (rest : List Move)
    (h : s.OpenOnly k i.unit) (hm : s.insts[k]? = some m) (ha : m.act s.cfg (.beat (encode i)) = .next m') :
    (s.afterMove k rest m').OpenOnly k i.unit ∧ (i.closes = true → (s.afterMove k rest m').NoneOpen) := by
  obtain ⟨hlt, -⟩ := List.getElem?_eq_some_iff.mp hm
  have hpos (v : UnitName) : m'.pos v = if v = i.unit then positionAfter (.beat (encode i)) (m.pos v) else m.pos v := by
    rw [← encode_unit]
    exact Codec.act_pos ha v
  have stillOnly : (s.afterMove k rest m').OpenOnly k i.unit := fun j n hn v hne => by
    by_cases hj : j = k
    · subst hj
      obtain rfl := Option.some.inj ((List.getElem?_set_self hlt).symm.trans hn)
      by_cases hv : v = i.unit
      · exact ⟨rfl, hv⟩
      · exact h j m hm v (by rwa [hpos, if_neg hv] at hne)
    · exact h j n ((List.getElem?_set_ne (Ne.symm hj)).symm.trans hn) v hne
  refine ⟨stillOnly, fun hclose n hn => Codec.noMessageOpen_iff.mpr fun v => by_contra fun hne => hne ?_⟩
  obtain ⟨j, hj⟩ := List.getElem?_of_mem hn
  obtain ⟨rfl, rfl⟩ := stillOnly j n hj v hne
  obtain rfl := Option.some.inj ((List.getElem?_set_self hlt).symm.trans hj)
  rw [hpos, if_pos rfl, positionAfter_closing _ (by rw [decodeBeat_encode, hclose])]

/-- With an unbounded buffer a step over a beat on an instance that exists goes on, and what it keeps. -/
theorem step_beat_of_unbounded {s : State} {k : Nat} {i : Instr} {rest : List Move} (hinv : s.Inv)
    (hcap : s.cfg.obufCap = none) (hk : k < s.cfg.nInst) (hopen : s.OpenOnly k i.unit)
    (hhost : s.host = ⟨k, .beat (encode i)⟩ :: rest) :
    ∃ t, step s = .next t ∧ t.Inv ∧ t.cfg = s.cfg ∧ t.host = rest ∧ t.OpenOnly k i.unit ∧
      (i.closes = true → t.NoneOpen) := by
  obtain ⟨m, hm, hm'⟩ := hinv.exists_codec hk
  obtain ⟨m', ha⟩ | ⟨-, cap, hsome⟩ := Codec.act_total (.beat (encode i)) hm'
  · have hstep := step_next_of_act hhost hm ha
    exact ⟨_, hstep, stepKeepsInvariant _ _ hinv hstep, rfl, rfl, hopen.afterMove rest hm ha⟩
  · cases hcap.symm.trans hsome

/-- The run over one whole message. -/
theorem run_message {s : State} {k : Nat} {u : UnitName} {commands : List Instr} {rest : List Move} (hinv : s.Inv)
    (hcap : s.cfg.obufCap = none) (hk : k < s.cfg.nInst) (hopen : s.OpenOnly k u)
    (hwf : messageWellFormed u commands = true) (hhost : s.host = movesOf k commands ++ rest) :
    ∃ t, run commands.length s = .next t ∧ t.Inv ∧ t.cfg = s.cfg ∧ t.host = rest ∧ t.NoneOpen := by
  induction commands generalizing s with
  | nil => cases hwf
  | cons i commands ih =>
    cases commands with
    | nil =>
      obtain ⟨rfl, hclose⟩ : i.unit = u ∧ i.closes = true := by simpa [messageWellFormed] using hwf
      obtain ⟨t, hstep, hinv', hcfg, hhost', -, hnone⟩ := step_beat_of_unbounded hinv hcap hk hopen hhost
      exact ⟨t, run_succ_of_step 0 hstep, hinv', hcfg, hhost', hnone hclose⟩
    | cons j commands =>
      obtain ⟨⟨rfl, -⟩, hwf'⟩ : (i.unit = u ∧ i.closes = false) ∧ messageWellFormed u (j :: commands) = true := by
        simpa [messageWellFormed] using hwf
      obtain ⟨t, hstep, hinv', hcfg, hhost', hopen', -⟩ := step_beat_of_unbounded hinv hcap hk hopen hhost
      obtain ⟨t', hrun, hinv'', hcfg', ht'⟩ := ih hinv' (hcfg ▸ hcap) (hcfg ▸ hk) hopen' hwf' hhost'
      exact ⟨t', (run_succ_of_step _ hstep).trans hrun, hinv'', hcfg'.trans hcfg, ht'⟩

/-- Settles O57: each message leaves none open, so that at the end of the run no unit holds anything. -/
theorem closedMessagesEndTheRun : Obligations.ClosedMessagesEndTheRun := by
  intro s msgs hinv hcap hnone hwf hhost
  induction msgs generalizing s with
  | nil =>
    have hnil : s.host = [] := hhost
    obtain ⟨over_iff, -⟩ := runIsOverExactlyWhenNoMessageIsOpen s hinv
    exact ⟨s, run_of_host_nil hnil _, over_iff.mpr ⟨hnil, hnone⟩⟩
  | cons x msgs ih =>
    obtain ⟨hk, hx⟩ := hwf x List.mem_cons_self
    obtain ⟨t, hrun, hinv', hcfg, hhost', hnone'⟩ := run_message hinv hcap hk
      (State.NoneOpen.openOnly hnone _ _) hx (hhost.trans List.flatMap_cons)
    obtain ⟨t', hrun', hover⟩ := ih t hinv' (hcfg ▸ hcap) hnone'
      (fun y hy => hcfg ▸ hwf y (List.mem_cons_of_mem x hy)) hhost'
    refine ⟨t', ?_, hover⟩
    rw [hhost, List.flatMap_cons, List.length_append, movesOf_length, run_add_of_next _ hrun, ← hhost', hrun']

/-- Where a position is not 0 the run is not over. -/
theorem not_runOver_of_open {s : State} {k : Nat} {m : Codec} (hm : s.insts[k]? = some m)
    (hopen : m.encPos ≠ 0 ∨ m.decPos ≠ 0) : ¬ s.runOver := fun ⟨_, hall⟩ =>
  have ⟨⟨henc, hdec⟩, _⟩ := hall m (List.mem_of_getElem? hm)
  hopen.elim (absurd henc) (absurd hdec)

/-- Settles O58: the data beats have moved the position on, and a machine that is offered nothing waits. -/
theorem unclosedMessageIsNotFinal : Obligations.UnclosedMessageIsNotFinal := by
  refine ⟨fun s k m bytes hm hc hne hhost => ?_, fun s k m chars hm hidle hfits hne hhost => ?_⟩
  · obtain ⟨hlt, -⟩ := List.getElem?_eq_some_iff.mp hm
    have hpos : m.encPos + bytes.length ≠ 0 := by have := List.length_pos_iff.mpr hne; omega
    have hlast {c : Codec} : (s.insts.set k c)[k]? = some c := List.getElem?_set_self hlt
    exact ⟨_, _, run_ebytes bytes hm hc (hhost.trans (List.append_nil _).symm), hlast, rfl, rfl,
      not_runOver_of_open hlast (.inl hpos), run_of_host_nil rfl⟩
  · obtain ⟨hlt, -⟩ := List.getElem?_eq_some_iff.mp hm
    have hpos : m.decPos + chars.length ≠ 0 := by have := List.length_pos_iff.mpr hne; omega
    have hlast {c : Codec} : (s.insts.set k c)[k]? = some c := List.getElem?_set_self hlt
    exact ⟨_, _, run_dchars chars hm (hidle.hasRoom hfits) (hhost.trans (List.append_nil _).symm), hlast, rfl,
      DecUnit.takeChars_out .., rfl, not_runOver_of_open hlast (.inr hpos), run_of_host_nil rfl⟩

end Sys2Proof.Machine
end

section
/-!
PROOFS. The UTF-8 check (rule R95): it reads the byte stream one row of its table at a time, and the rows are the well-formed
sequences written out as inequalities.
-/

namespace Sys2Proof.Machine

/-- The bytes fall in the ranges, one by one. -/
def InRanges (ranges : List ByteRange) (q : List Byte) : Prop :=
  List.Forall₂ (fun r b => r.has b = true) ranges q

/-- The bytes are a sequence of the row. -/
def Utf8Row.Matches (row : Utf8Row) (q : List Byte) : Prop :=
  InRanges (row.first :: row.rest) q

theorem inRanges_cons_iff {r : ByteRange} {ranges : List ByteRange} {q : List Byte} :
    InRanges (r :: ranges) q ↔ ∃ b q', r.has b = true ∧ InRanges ranges q' ∧ q = b :: q' :=
  List.forall₂_cons_left_iff

theorem ByteRange.has_iff {r : ByteRange} {b : Byte} : r.has b = true ↔ r.lo ≤ b.toNat ∧ b.toNat ≤ r.hi := by
  simp [ByteRange.has]

/-- In the middle of a sequence the check reads one byte for each range that is due, then begins the next sequence. -/
theorem utf8From_iff {due : List ByteRange} {bytes : List Byte} :
    utf8From due bytes = true ↔ ∃ q rest, bytes = q ++ rest ∧ InRanges due q ∧ utf8Ok rest = true := by
  induction due generalizing bytes with
  | nil =>
    refine ⟨fun h => ⟨[], bytes, rfl, .nil, h⟩, ?_⟩
    rintro ⟨q, rest, rfl, hq, hrest⟩
    cases hq
    exact hrest
  | cons r due ih =>
    cases bytes with
    | nil =>
      refine iff_of_false (by simp [utf8From]) ?_
      rintro ⟨q, rest, happ, hq, -⟩
      obtain ⟨b, q', -, -, rfl⟩ := inRanges_cons_iff.mp hq
      cases happ
    | cons b bytes =>
      rw [utf8From, Bool.and_eq_true, ih]
      constructor
      · rintro ⟨hb, q, rest, rfl, hq, hrest⟩
        exact ⟨b :: q, rest, rfl, .cons hb hq, hrest⟩
      · rintro ⟨q, rest, happ, hq, hrest⟩
        obtain ⟨b', q', hb, hq', rfl⟩ := inRanges_cons_iff.mp hq
        obtain ⟨rfl, rfl⟩ := List.cons.inj happ
        exact ⟨hb, q', rest, rfl, hq', hrest⟩

/-- No byte begins a sequence of two rows. -/
theorem utf8Rows_disjoint : ∀ row ∈ utf8Rows, ∀ row' ∈ utf8Rows,
    row = row' ∨ row.first.hi < row'.first.lo ∨ row'.first.hi < row.first.lo := by decide

/-- The row that the check finds is the one whose first range holds the byte. -/
theorem find_utf8Rows_iff {b : Byte} {row : Utf8Row} :
    utf8Rows.find? (fun row => row.first.has b) = some row ↔ row ∈ utf8Rows ∧ row.first.has b = true := by
  refine ⟨fun h => ⟨List.mem_of_find?_eq_some h, List.find?_some (p := fun row : Utf8Row => row.first.has b) h⟩, ?_⟩
  rintro ⟨hmem, hb⟩
  cases h : utf8Rows.find? (fun row => row.first.has b) with
  | none => exact absurd hb (List.find?_eq_none.mp h row hmem)
  | some found =>
    have hfound := List.find?_some (p := fun row : Utf8Row => row.first.has b) h
    rw [ByteRange.has_iff] at hb hfound
    obtain heq | hlt | hlt := utf8Rows_disjoint found (List.mem_of_find?_eq_some h) row hmem
    · rw [heq]
    · omega
    · omega

/-- Rule R95: the rows of the table, written as inequalities. -/
theorem utf8Sequence_iff {q : List Byte} : Utf8Sequence q ↔ ∃ row ∈ utf8Rows, row.Matches q := by
  match q with
  | [] => simp [Utf8Sequence, utf8Rows, Utf8Row.Matches, InRanges]
  | [a] => simp [Utf8Sequence, utf8Rows, Utf8Row.Matches, InRanges, ByteRange.has_iff]
  | [a, b] => simp [Utf8Sequence, utf8Rows, Utf8Row.Matches, InRanges, ByteRange.has_iff, contBytes, and_assoc]
  | [a, b, c] =>
    simp [Utf8Sequence, utf8Rows, Utf8Row.Matches, InRanges, ByteRange.has_iff, contBytes]
    omega
  | [a, b, c, d] =>
    simp [Utf8Sequence, utf8Rows, Utf8Row.Matches, InRanges, ByteRange.has_iff, contBytes]
    omega
  | a :: b :: c :: d :: e :: q => simp [Utf8Sequence, utf8Rows, Utf8Row.Matches, InRanges]

/-- The check of a stream that is not empty reads one well-formed sequence and goes on after it. -/
theorem utf8Ok_cons_iff {b : Byte} {bytes : List Byte} :
    utf8Ok (b :: bytes) = true ↔ ∃ q rest, b :: bytes = q ++ rest ∧ Utf8Sequence q ∧ utf8Ok rest = true := by
  constructor
  · intro h
    rw [utf8Ok, utf8From] at h
    split at h
    next => cases h
    next row hrow =>
      obtain ⟨hmem, hb⟩ := find_utf8Rows_iff.mp hrow
      obtain ⟨q, rest, rfl, hq, hrest⟩ := utf8From_iff.mp h
      exact ⟨b :: q, rest, rfl, utf8Sequence_iff.mpr ⟨row, hmem, .cons hb hq⟩, hrest⟩
  · rintro ⟨q, rest, happ, hseq, hrest⟩
    obtain ⟨row, hmem, hmatch⟩ := utf8Sequence_iff.mp hseq
    obtain ⟨b', q', hb, hq, rfl⟩ := inRanges_cons_iff.mp hmatch
    obtain ⟨rfl, rfl⟩ := List.cons.inj happ
    rw [utf8Ok, utf8From, find_utf8Rows_iff.mpr ⟨hmem, hb⟩]
    exact utf8From_iff.mpr ⟨q', rest, rfl, hq, hrest⟩

/-- Settles O43: the check reads the stream one sequence after the other. -/
theorem utf8OkIsTheNineRowTable : Obligations.Utf8OkIsTheNineRowTable := by
  intro out
  constructor
  · intro h
    induction hn : out.length using Nat.strongRecOn generalizing out with
    | ind n ih =>
      cases out with
      | nil => exact ⟨[], by simp, rfl⟩
      | cons b bytes =>
        obtain ⟨q, rest, happ, hseq, hrest⟩ := utf8Ok_cons_iff.mp h
        have hq : 0 < q.length := List.length_pos_iff.mpr fun hnil => by rw [hnil] at hseq; exact hseq
        have hlen : rest.length < n := by
          rw [← hn, happ, List.length_append]
          omega
        obtain ⟨qs, hall, rfl⟩ := ih rest.length hlen rest hrest rfl
        exact ⟨q :: qs, List.forall_mem_cons.mpr ⟨hseq, hall⟩, happ⟩
  · rintro ⟨qs, hall, rfl⟩
    induction qs with
    | nil => rfl
    | cons q qs ih =>
      obtain ⟨hseq, hall'⟩ := List.forall_mem_cons.mp hall
      cases q with
      | nil => exact hseq.elim
      | cons b q => exact utf8Ok_cons_iff.mpr ⟨b :: q, qs.flatten, rfl, hseq, ih hall'⟩

end Sys2Proof.Machine
end
